-- ==== Sys2Proof/Word.lean ====
section
/-! DEFINITION. The two word types of the hardware: the byte (R10) and the 16-bit address (R14). -/

namespace Sys2Proof

/-- One 8-bit byte: an element of `MEM`, an 8-bit register, an opcode (R10, R11, R50). -/
abbrev Byte := BitVec 8

/-- A 16-bit address: the contents of `PC` (R14). -/
abbrev Addr := BitVec 16

end Sys2Proof
end

