-- ==== Sys2Proof/Machine/Events.lean ====
section
/-! DEFINITION. The names of the block's events and results: error kinds (R120), status events (R24). -/

namespace Sys2Proof.Machine

/-- `ES`, the execution state, "enumerated {Stopped, Running}" (R17). -/
inductive ExecState where
  | stopped
  | running
  deriving DecidableEq, Repr

/-- The closed list of error kinds (R120). LOAD reports the first three; `runError` is what a failing
extension handler raises (R96, R121). -/
inductive ErrorKind where
  | ioError
  | formatError
  | truncatedError
  | runError
  deriving DecidableEq, Repr

/-- Why a START had no effect (R107). -/
inductive StartIgnoredReason where
  | alreadyRunning
  | noCartridge
  deriving DecidableEq, Repr

/-- The events of the `STATUS` output (the table of R24). -/
inductive StatusEvent where
  /-- Appended by Reset() (R142). -/
  | resetDone (pc : Addr) (sp : Byte)
  /-- Appended by a failed LOAD (R69 to R71). -/
  | loadFailed (kind : ErrorKind)
  /-- Appended by a START that has no effect (R107). -/
  | startIgnored (reason : StartIgnoredReason)
  /-- Appended by a STOP when already Stopped (R109). -/
  | stopIgnored
  /-- Appended by HLT (R90). -/
  | halted (pc : Addr)
  /-- Appended by a run error (R96). -/
  | runFailed
  deriving DecidableEq, Repr

end Sys2Proof.Machine
end

