-- ==== Sys2Proof/Machine/Handler.lean ====
section
/-! DEFINITION. The extension contract as data (R93 to R97): what a handler of `EXT` may do, and what an
entry declares. `EXT` is empty on this hardware (R99); the types bind a later, fuller instruction set. -/

namespace Sys2Proof.Machine

/-- The names of the register file (R11 to R14). -/
inductive Reg where
  | A
  | X
  | Y
  | P
  | SP
  | PC
  deriving DecidableEq, Repr

/-- The width of a register in bits (R11 to R14). -/
def Reg.width : Reg → Nat
  | .A | .X | .Y | .P | .SP => 8
  | .PC => 16

/-- The body of an extension handler: a finite tree of the actions the contract allows it and no other
(R95, R96). Its operand bytes are fetched before it starts (`ExtEntry.operandBytes`, R94). -/
inductive Handler where
  /-- The handler has finished. -/
  | done
  /-- `raise RunError` (R96): the run ends, nothing already done is rolled back. -/
  | raiseRunError
  /-- `ES <- Stopped` (R95), then go on. -/
  | stopEngine (rest : Handler)
  /-- `MemRead(addr, 1)` (R95, R30). -/
  | memRead (addr : Int) (rest : Byte → Handler)
  /-- `MemWrite(addr, 1, value)` (R95, R31). -/
  | memWrite (addr value : Int) (rest : Handler)
  /-- Read a register (R16). -/
  | regRead (r : Reg) (rest : Nat → Handler)
  /-- Write a register under its width mask, `PC` included (R16, R95). -/
  | regWrite (r : Reg) (value : Int) (rest : Handler)

/-- One entry of the extension table: the declared attributes (R97: no effect on state), the fixed number
of operand bytes (R94), and the handler's body as a function of those bytes. -/
structure ExtEntry where
  addressingMode : String
  sideEffects : String
  cycleCost : Nat
  operandBytes : Nat
  body : List Byte → Handler

end Sys2Proof.Machine
end

