-- ==== Sys2Proof/Config.lean ====
section
/-! DEFINITION. The implementation parameters of R5: the constants, and the OPEN ones as fields of `Params`. -/

namespace Sys2Proof.Config

/-- `MEM_SIZE` (R5). -/
def memSize : Nat := 65536

/-- `BANK_SIZE` (R5). -/
def bankSize : Nat := 16384

/-- `HEADER_SIZE` (R5). -/
def headerSize : Nat := 16

/-- `MAGIC` (R5). -/
def magic : List Byte := [0x4E, 0x45, 0x53, 0x1A]

/-- The offset of the bank count in an image (R65). -/
def bankCountOffset : Nat := 4

/-- `WINDOW0`, the first bank window (R5). -/
def window0 : Nat := 0x8000

/-- `WINDOW1`, the second bank window (R5). -/
def window1 : Nat := 0xC000

/-- `RESET_VECTOR`, low byte (R5). -/
def vectorLow : Nat := 0xFFFC

/-- `RESET_VECTOR`, high byte (R5). -/
def vectorHigh : Nat := 0xFFFD

/-- `HALT_OPCODE` (R5). -/
def haltOpcode : Byte := 0x00

/-- What a byte of `MEM` that nothing has written reads as: "zero-initialized" (R10, R22). -/
def powerOnByte : Byte := 0x00

/-- The parameters R5 marks OPEN, with their defaults. -/
structure Params where
  /-- `RESET_SP`, default 0xFD (R146; log entry 12). -/
  resetSP : Byte := 0xFD
  /-- `RESET_P`, default 0x04 (R146; log entry 12). -/
  resetP : Byte := 0x04
  /-- `EXT`, the extension dispatch table; the empty table for this hardware (R99; log entry 13). -/
  ext : Byte → Option Machine.ExtEntry := fun _ => none
  /-- `STATUS_TEXT`, from an event to its text line; no rule reads it (R5, U4). -/
  statusText : Machine.StatusEvent → String

/-- The text of the status lines, which the source leaves open: a free value (log entry 15). -/
opaque statusText : Machine.StatusEvent → String

/-- The parameters of this hardware: the defaults, `EXT` empty (R5, R99). -/
def hardware : Params := { statusText := statusText }

end Sys2Proof.Config
end

