-- ==== Sys2Proof/Syntax.lean ====
section
/-! DEFINITION. The instruction set {HLT, SKP} (R52, R92). -/

namespace Sys2Proof

/-- The two instructions of the base hardware. The eight SKP rows of the opcode table are eight bit
patterns of ONE instruction (R52, R57; log entry 11): `op` is the opcode byte, 0x01..0xFF, which the
instruction ignores (R91). -/
inductive Instr where
  /-- The halt opcode 0x00 (R90). -/
  | hlt
  /-- The uninterpreted opcode `op` (R91), written `SKP $op` (R58). -/
  | skp (op : Byte)
  deriving DecidableEq, Repr

end Sys2Proof
end

