-- ==== Sys2Proof/WellFormed.lean ====
section
/-! DEFINITION. Which instruction terms have an encoding. -/

namespace Sys2Proof

/-- `SKP $nn` needs `nn` in 01..FF: "`SKP $00` is an error, because 0x00 is `HLT`" (R58). -/
def Instr.wellFormed : Instr → Bool
  | .hlt => true
  | .skp op => op != 0x00

end Sys2Proof
end

