-- ==== Sys2Proof/Decode.lean ====
section
/-! DEFINITION. The decoder and the encoder (R50 to R57), and the opcode table as the spec prints it. -/

namespace Sys2Proof

/-- One row of the opcode table (R57): a byte `b` selects the row when `b & mask = pattern`. -/
structure OpRow where
  mnemonic : String
  pattern : Byte
  mask : Byte
  deriving DecidableEq, Repr

/-- The nine rows of `opcode_table.json` (R52, R57). -/
def opcodeTable : List OpRow :=
  [ ⟨"HLT", 0x00, 0xFF⟩,
    ⟨"SKP", 0x80, 0x80⟩,
    ⟨"SKP", 0x40, 0xC0⟩,
    ⟨"SKP", 0x20, 0xE0⟩,
    ⟨"SKP", 0x10, 0xF0⟩,
    ⟨"SKP", 0x08, 0xF8⟩,
    ⟨"SKP", 0x04, 0xFC⟩,
    ⟨"SKP", 0x02, 0xFE⟩,
    ⟨"SKP", 0x01, 0xFF⟩ ]

/-- A byte selects a row of the table (R57). -/
def OpRow.selects (r : OpRow) (b : Byte) : Bool := b &&& r.mask == r.pattern

/-- The mnemonic of an instruction (R58). -/
def Instr.mnemonic : Instr → String
  | .hlt => "HLT"
  | .skp _ => "SKP"

/-- Decoding one opcode byte: "if byte = 0x00 then HLT else SKP" (R52). A function of the byte alone, total (R51). -/
def decodeByte (b : Byte) : Instr := if b = Config.haltOpcode then .hlt else .skp b

/-- Why a byte sequence holds no instruction. -/
inductive DecodeError where
  /-- There is no byte to decode; it is the only rejection, since no byte value is undecodable (R51, R54). -/
  | noByte
  deriving DecidableEq, Repr

/-- The first instruction of a byte sequence, and the bytes after it: every instruction is one byte long (R50). -/
def decode : List Byte → Except DecodeError (Instr × List Byte)
  | [] => .error .noByte
  | b :: rest => .ok (decodeByte b, rest)

/-- A whole byte sequence as instructions: the byte after an instruction is the next one (R53). -/
def decodeStream : List Byte → List Instr
  | [] => []
  | b :: rest => decodeByte b :: decodeStream rest

/-- The byte of an instruction (R52, R58). -/
def encodeByte : Instr → Byte
  | .hlt => 0x00
  | .skp op => op

/-- The words of an instruction: one byte (R50). -/
def encode (i : Instr) : List Byte := [encodeByte i]

/-- The bytes of a sequence of instructions, in ascending address order (R38). -/
def encodeStream : List Instr → List Byte
  | [] => []
  | i :: rest => encode i ++ encodeStream rest

/-- The instruction byte that a table word of `nbits` bits stands for: bits above `nbits` are 0, and an
instruction is one byte (R50). -/
def tableByte (nbits w : Nat) : Byte := BitVec.ofNat 8 (w % 2 ^ nbits)

/-- What the decoder reads from a table word. -/
def decodeTableWord (nbits w : Nat) : Option Instr :=
  match decode [tableByte nbits w] with
  | .ok (i, _) => some i
  | .error _ => none

end Sys2Proof
end

