-- ==== Sys2Proof/Machine/State.lean ====
section
/-! DEFINITION. The machine's state (10_state.md), its power-on value (R22), its value after Reset() (R23),
and the reasons a step can stop. -/

namespace Sys2Proof.Machine

/-- `MEM` as plain data: (index, byte) pairs with strictly rising indices below 65536 and no byte equal to
what an unlisted index reads as (R10; log entry 18). -/
abbrev Memory := List Host.Cell

/-- A HOST operation (R7, R117). -/
inductive HostOp where
  /-- `LOAD(image)`; `none` is the HOST having no image to present (R66, R71). -/
  | load (image : Option (List Byte))
  /-- `START` (R106, R107). -/
  | start
  /-- `STOP` (R108, R109). -/
  | stop
  /-- `RESET` (R115). -/
  | reset
  /-- `PEEK(addr)` (R112). -/
  | peek (addr : Int)
  /-- `POKE(addr, value)` (R113). -/
  | poke (addr value : Int)
  /-- `INSPECT` (R114). -/
  | inspect
  deriving DecidableEq, Repr

/-- Whose turn it is: an entry of the schedule (R25; log entry 3). -/
inductive Turn where
  /-- The ENGINE takes a step, if it exists (R6, R87). -/
  | engine
  /-- The HOST performs an operation (R6). -/
  | host (op : HostOp)
  deriving DecidableEq, Repr

/-- The result of LOAD: success, or one error kind (R7, R68). -/
inductive LoadResult where
  | success
  | fail (kind : ErrorKind)
  deriving DecidableEq, Repr

/-- What INSPECT returns: "the current `A`, `X`, `Y`, `P`, `SP`, `PC` and `ES`" (R114). -/
structure Inspection where
  A : Byte
  X : Byte
  Y : Byte
  P : Byte
  SP : Byte
  PC : Addr
  ES : ExecState
  deriving DecidableEq, Repr

/-- What a HOST operation returned to the HOST (the outputs of R7; log entry 5). -/
inductive Reply where
  | loaded (result : LoadResult)
  | startReturned
  | stopReturned
  | resetReturned
  | peeked (value : Byte)
  | pokeReturned
  | inspected (values : Inspection)
  deriving DecidableEq, Repr

/-- The whole state: the eleven pieces the spec names (10_state.md section 1), and the model's own two
fields, `agenda` and `replies`, for the block's inputs and outputs (log entries 3 and 5). -/
structure State where
  /-- The memory array (R10). -/
  MEM : Memory
  /-- The accumulator (R11). -/
  A : Byte
  /-- An index register (R11). -/
  X : Byte
  /-- An index register (R11). -/
  Y : Byte
  /-- The flag register, all 8 bits storage (R12). -/
  P : Byte
  /-- The stack pointer (R13). -/
  SP : Byte
  /-- The program counter: the address of the next byte to fetch (R14). -/
  PC : Addr
  /-- The execution state (R17). -/
  ES : ExecState
  /-- "a cartridge has been loaded" (R18). -/
  LOADED : Bool
  /-- The cancellation flag (R19). -/
  CANCEL : Bool
  /-- The status output, oldest event first (R24). -/
  STATUS : List StatusEvent
  /-- The model's own: what is still to happen, in order (R25; log entry 3). -/
  agenda : List Turn
  /-- The model's own: what HOST operations returned, oldest first (R7; log entry 5). -/
  replies : List Reply
  deriving DecidableEq, Repr

/-- The state at power-on (R22, R140). The spec gives `A`, `X`, `Y`, `P` and `PC` no power-on value ("any
value"), so they are arguments: what is said of this state is said for every one of them (log entry 2). -/
def State.powerOn (a x y p : Byte) (pc : Addr) : State where
  MEM := []
  A := a
  X := x
  Y := y
  P := p
  SP := Config.hardware.resetSP
  PC := pc
  ES := .stopped
  LOADED := false
  CANCEL := false
  STATUS := []
  agenda := []
  replies := []

/-- The machine right after Reset() on a fresh machine: R23 with `MEM` all zero, so that the vector gives
`PC = 0x0000`, and `ES`, `LOADED`, `CANCEL` as power-on left them (R144, vector Z3; log entry 1). -/
def State.reset : State where
  MEM := []
  A := 0x00
  X := 0x00
  Y := 0x00
  P := 0x04
  SP := 0xFD
  PC := 0x0000
  ES := .stopped
  LOADED := false
  CANCEL := false
  STATUS := [.resetDone 0x0000 0xFD]
  agenda := []
  replies := []

/-- The reasons the machine stops with a fault: none. "No memory access faults" (R34), no instruction
raises an exception (R124), "No event is fatal" (R123), so nobody raises one. -/
inductive Fault : Type
  deriving DecidableEq, Repr

/-- The reasons a step is refused. Each is a HOST operation to which the spec gives no meaning. -/
inductive Refusal where
  /-- An instruction without a meaning. Raised by nobody: both instructions have theirs. Safe. -/
  | notModelled (mnemonic : String)
  /-- Raised by a LOAD while `ES = Running`: "the spec gives it no meaning (`refuse`)" (R67, R148; log
  entry 8). Safe: no claim can be proved of what happens then. -/
  | loadWhileRunning
  /-- Raised by a RESET while `ES = Running` (R115, R148; log entry 8). Safe. -/
  | resetWhileRunning
  /-- Raised by a POKE while `ES = Running` (R113, R148; log entry 8). Safe. -/
  | pokeWhileRunning
  /-- Raised by a LOAD whose image passes the checks with bank count 0: "a model refuses it and proves
  nothing about it" (R73; log entry 9). Safe. -/
  | loadBankCountZero
  deriving DecidableEq, Repr

end Sys2Proof.Machine
end

