-- ==== Sys2Proof/Machine/Ops.lean ====
section
/-! DEFINITION. The operations every agent uses: the memory primitives (R30, R31), register access (R16),
Fetch() (R85), the end of a run and its resumption (R127, R129), and Reset() (R142). -/

namespace Sys2Proof.Machine

/-- The canonical form of `MEM`: indices strictly rising and in range, no byte equal to the power-on byte
(log entry 18). -/
abbrev Memory.wf (m : Memory) : Prop :=
  m.Pairwise (fun c d => c.1 < d.1) ∧ ∀ c ∈ m, c.1 < Config.memSize ∧ c.2 ≠ Config.powerOnByte

/-- `MEM[i]`: the listed byte, or the power-on byte (R10, R22). -/
def Memory.get : Memory → Nat → Byte
  | [], _ => Config.powerOnByte
  | (k, v) :: m, i => if i = k then v else Memory.get m i

/-- A cell in front of a memory; a power-on byte is not listed. -/
def Memory.cons (i : Nat) (v : Byte) (m : Memory) : Memory :=
  if v = Config.powerOnByte then m else (i, v) :: m

/-- `MEM[i] <- v`, keeping the canonical form. -/
def Memory.set : Memory → Nat → Byte → Memory
  | [], i, v => Memory.cons i v []
  | (k, w) :: m, i, v =>
    if i < k then Memory.cons i v ((k, w) :: m)
    else if i = k then Memory.cons i v m
    else (k, w) :: Memory.set m i v

/-- `addr mod 65536`, the Euclidean remainder of any integer (R30, R32; log entry 16). -/
def maskAddr (addr : Int) : Nat := (addr % (Config.memSize : Int)).toNat

/-- `v mod 256` of any integer, as a byte (R31, R32; log entry 16). -/
def maskByte (v : Int) : Byte := BitVec.ofInt 8 v

/-- `MemRead(addr, 1)` (R30). -/
def memRead (m : Memory) (addr : Int) : Byte := m.get (maskAddr addr)

/-- `MemWrite(addr, 1, v)` (R31). -/
def memWrite (m : Memory) (addr v : Int) : Memory := m.set (maskAddr addr) (maskByte v)

/-- `MemWrite(base + i, 1, bytes[i])` for every `i` (R68, R72). The addresses are distinct and the copy is
indivisible, so the order of the writes cannot be observed; the highest is written first (log entry 17). -/
def writeBlock (m : Memory) (base : Int) : List Byte → Memory
  | [] => m
  | b :: rest => memWrite (writeBlock m (base + 1) rest) base b.toNat

/-- The value a register holds (R16). -/
def State.readReg (s : State) : Reg → Nat
  | .A => s.A.toNat
  | .X => s.X.toNat
  | .Y => s.Y.toNat
  | .P => s.P.toNat
  | .SP => s.SP.toNat
  | .PC => s.PC.toNat

/-- `r <- v`: the value modulo 2 to the register's width (R16). -/
def State.writeReg (s : State) (r : Reg) (v : Int) : State :=
  match r with
  | .A => { s with A := BitVec.ofInt 8 v }
  | .X => { s with X := BitVec.ofInt 8 v }
  | .Y => { s with Y := BitVec.ofInt 8 v }
  | .P => { s with P := BitVec.ofInt 8 v }
  | .SP => { s with SP := BitVec.ofInt 8 v }
  | .PC => { s with PC := BitVec.ofInt 16 v }

/-- `emit E`: append an event to `STATUS` (R8, R24). -/
def State.emit (s : State) (e : StatusEvent) : State := { s with STATUS := s.STATUS ++ [e] }

/-- A HOST operation returns (R7; log entry 5). -/
def State.reply (s : State) (r : Reply) : State := { s with replies := s.replies ++ [r] }

/-- Fetch(): the byte at `PC`, and the state with `PC` advanced by 1 modulo 65536 (R85). -/
def fetch (s : State) : Byte × State :=
  (memRead s.MEM (s.readReg .PC), s.writeReg .PC ((s.readReg .PC : Int) + 1))

/-- "Trap entry" on this hardware, the end of a run (R127): `ES` becomes Stopped and, where the cause
records one, an event is appended; nothing is saved and no other state changes. Every cause of R122 goes
through it: the halt opcode, an observed stop request, a run error. -/
def endRun (event : Option StatusEvent) (s : State) : State :=
  match event with
  | none => { s with ES := .stopped }
  | some e => { s with ES := .stopped }.emit e

/-- "Trap return" on this hardware, what an effective START does (R106, R129): `CANCEL` is cleared and `ES`
becomes Running; `PC` and the register file stay as they stand (R110). -/
def resumeRun (s : State) : State := { s with CANCEL := false, ES := .running }

/-- `(high << 8) | low` of the two bytes of the reset vector, little-endian (R38, R142). -/
def resetVector (m : Memory) : Nat :=
  (memRead m Config.vectorHigh).toNat <<< 8 ||| (memRead m Config.vectorLow).toNat

/-- Reset() (R142): the register file, `PC` from the little-endian vector, and the status event. -/
def doReset (cfg : Config.Params) (s : State) : State :=
  let s := s.writeReg .A 0x00
  let s := s.writeReg .X 0x00
  let s := s.writeReg .Y 0x00
  let s := s.writeReg .SP cfg.resetSP.toNat
  let s := s.writeReg .P cfg.resetP.toNat
  let s := s.writeReg .PC (resetVector s.MEM)
  s.emit (.resetDone s.PC s.SP)

/-- The `STATUS` output as the text lines a reader of the stream sees (R7, R24); no rule reads it. -/
def statusLines (cfg : Config.Params) (s : State) : List String := s.STATUS.map cfg.statusText

end Sys2Proof.Machine
end

