-- ==== Sys2Proof/Machine/Base.lean ====
section
/-! DEFINITION. The meanings of the base instruction set {HLT, SKP} (R92). Each is applied to the state
after the opcode fetch, so `PC` already points after the opcode byte (R87, R90, R91). -/

namespace Sys2Proof.Machine

/-- HLT (R90): `ES <- Stopped`, `emit Halted(PC)`. -/
def execHlt (s : State) : Host.Outcome State Fault Refusal := .next (endRun (some (.halted s.PC)) s)

/-- SKP (R91): nothing; the opcode byte's own value is ignored. -/
def execSkp (_op : Byte) (s : State) : Host.Outcome State Fault Refusal := .next s

end Sys2Proof.Machine
end

