-- ==== Sys2Proof/Machine/Operands.lean ====
section
/-! DEFINITION. Operands. The base instructions have none (R53); the operand bytes of an extension
instruction are consumed by further Fetch() calls, in ascending address order with wraparound (R38, R94). -/

namespace Sys2Proof.Machine

/-- `n` calls of Fetch(): the bytes in the order they were fetched, and the state after the last (R94). -/
def fetchOperands : Nat → State → List Byte × State
  | 0, s => ([], s)
  | n + 1, s =>
    let (b, s) := fetch s
    let (bs, s) := fetchOperands n s
    (b :: bs, s)

end Sys2Proof.Machine
end

