-- ==== Sys2Proof/Machine/Extension.lean ====
section
/-! DEFINITION. Running an entry of the extension table under its contract (R93 to R96). -/

namespace Sys2Proof.Machine

/-- Run a handler's body (R95, R96). A failing handler ends the run with `RunFailed`; what it did before
is not rolled back (R96; log entry 14). -/
def runHandler : Handler → State → State
  | .done, s => s
  | .raiseRunError, s => endRun (some .runFailed) s
  | .stopEngine rest, s => runHandler rest (endRun none s)
  | .memRead addr rest, s => runHandler (rest (memRead s.MEM addr)) s
  | .memWrite addr value rest, s => runHandler rest { s with MEM := memWrite s.MEM addr value }
  | .regRead r rest, s => runHandler (rest (s.readReg r)) s
  | .regWrite r value rest, s => runHandler rest (s.writeReg r value)

/-- Run an entry: its operand bytes through Fetch(), then its body (R94, R95). -/
def runEntry (e : ExtEntry) (s : State) : State :=
  let (operands, s) := fetchOperands e.operandBytes s
  runHandler (e.body operands) s

/-- The entry that a fetched opcode selects: `dom(EXT)` is a subset of 0x01..0xFF, 0x00 stays HLT (R55, R93). -/
def extEntry (cfg : Config.Params) (op : Byte) : Option ExtEntry :=
  if op = Config.haltOpcode then none else cfg.ext op

end Sys2Proof.Machine
end

