-- ==== Sys2Proof/Machine/Mapper.lean ====
section
/-! DEFINITION. The cartridge image format and the bank mapper: the HOST operation LOAD (40_cartridge_mapper.md). -/

namespace Sys2Proof.Machine

/-- `image[i]`; the checks only look at bytes that are there, and 0 stands for a byte that is not. -/
def imageByte (image : List Byte) (i : Nat) : Byte := image.getD i 0

/-- Step 2's test: at least 16 bytes, and the magic (R69). -/
def formatOk (image : List Byte) : Bool :=
  decide (Config.headerSize ≤ image.length) && image.take Config.magic.length == Config.magic

/-- `N`, the PRG bank count (R65). -/
def bankCount (image : List Byte) : Nat := (imageByte image Config.bankCountOffset).toNat

/-- `16 + prg_size`, what the declared bank count asks for (R70). -/
def requiredLength (image : List Byte) : Nat := Config.headerSize + bankCount image * Config.bankSize

/-- The first error the checks report, in the order of R80; `none` when the image passes (R69, R70). -/
def loadError (image : List Byte) : Option ErrorKind :=
  if !formatOk image then some .formatError
  else if image.length < requiredLength image then some .truncatedError
  else none

/-- PRG bank `k` of an image, `k` from 1: bytes `16+16384*(k-1) .. 16+16384*k-1` (R65). -/
def bank (image : List Byte) (k : Nat) : List Byte :=
  (image.drop (Config.headerSize + Config.bankSize * (k - 1))).take Config.bankSize

/-- The bank that lands in window 1: bank 1 again when `N = 1`, bank 2 when `N > 1` (R72, R77). -/
def window1Bank (image : List Byte) : List Byte :=
  if bankCount image = 1 then bank image 1 else bank image 2

/-- Steps 4 to 6: the two copies (R72). -/
def mapBanks (m : Memory) (image : List Byte) : Memory :=
  writeBlock (writeBlock m Config.window0 (bank image 1)) Config.window1 (window1Bank image)

/-- A LOAD that fails: `emit LoadFailed(kind)`, return the kind, nothing else (R69 to R71, R75). -/
def loadFail (kind : ErrorKind) (s : State) : State := (s.emit (.loadFailed kind)).reply (.loaded (.fail kind))

/-- Steps 4 to 7 of a LOAD that passed the checks (R68, R72, R74). -/
def loadMapped (cfg : Config.Params) (image : List Byte) (s : State) : State :=
  let s := { s with MEM := mapBanks s.MEM image }
  let s := { s with LOADED := true }
  (doReset cfg s).reply (.loaded .success)

/-- LOAD (R66 to R80): refused while Running (R67); IoError when there is no image (R71); then the checks,
the refusal of bank count 0 (R73), and the copies. -/
def hostLoad (cfg : Config.Params) (image : Option (List Byte)) (s : State) : Host.Outcome State Fault Refusal :=
  if s.ES = .running then .refused .loadWhileRunning
  else match image with
    | none => .next (loadFail .ioError s)
    | some image =>
      match loadError image with
      | some kind => .next (loadFail kind s)
      | none =>
        if bankCount image = 0 then .refused .loadBankCountZero
        else .next (loadMapped cfg image s)

end Sys2Proof.Machine
end

