-- ==== Sys2Proof/Machine/Lifecycle.lean ====
section
/-! DEFINITION. The HOST's other operations (42_lifecycle.md), and which operation is defined in which state (R117). -/

namespace Sys2Proof.Machine

/-- START (R106, R107). -/
def hostStart (s : State) : State :=
  if s.ES = .running then (s.emit (.startIgnored .alreadyRunning)).reply .startReturned
  else if s.LOADED = false then (s.emit (.startIgnored .noCartridge)).reply .startReturned
  else (resumeRun s).reply .startReturned

/-- STOP (R108, R109): ignored when Stopped (the event is optional; log entry 7); otherwise the request
`CANCEL <- true`, whose return comes with the ENGINE step that observes it (`engineStep`; log entry 4). -/
def hostStop (s : State) : State :=
  if s.ES = .stopped then (s.emit .stopIgnored).reply .stopReturned
  else { s with CANCEL := true }

/-- RESET (R115): Reset() and nothing else; refused while Running (R148). -/
def hostReset (cfg : Config.Params) (s : State) : Host.Outcome State Fault Refusal :=
  if s.ES = .running then .refused .resetWhileRunning
  else .next ((doReset cfg s).reply .resetReturned)

/-- PEEK (R112): defined in both execution states, changes nothing. -/
def hostPeek (addr : Int) (s : State) : State := s.reply (.peeked (memRead s.MEM addr))

/-- POKE (R113): one byte; refused while Running (R148). -/
def hostPoke (addr value : Int) (s : State) : Host.Outcome State Fault Refusal :=
  if s.ES = .running then .refused .pokeWhileRunning
  else .next ({ s with MEM := memWrite s.MEM addr value }.reply .pokeReturned)

/-- What INSPECT returns (R114). -/
def inspection (s : State) : Inspection :=
  { A := s.A, X := s.X, Y := s.Y, P := s.P, SP := s.SP, PC := s.PC, ES := s.ES }

/-- INSPECT (R114): defined in both execution states, changes nothing. -/
def hostInspect (s : State) : State := s.reply (.inspected (inspection s))

/-- One HOST operation, one indivisible transition (R6). -/
def hostStep (cfg : Config.Params) (op : HostOp) (s : State) : Host.Outcome State Fault Refusal :=
  match op with
  | .load image => hostLoad cfg image s
  | .start => .next (hostStart s)
  | .stop => .next (hostStop s)
  | .reset => hostReset cfg s
  | .peek addr => .next (hostPeek addr s)
  | .poke addr value => hostPoke addr value s
  | .inspect => .next (hostInspect s)

end Sys2Proof.Machine
end

