-- ==== Sys2Proof/Machine/Engine.lean ====
section
/-! DEFINITION. The ENGINE step (R87), and one transition of the whole block: the ENGINE's or the HOST's (R6). -/

namespace Sys2Proof.Machine

/-- The dispatch of R87 and R93: an entry of `EXT` runs its handler; otherwise HLT or SKP. -/
def dispatch (cfg : Config.Params) (op : Byte) (s : State) : Host.Outcome State Fault Refusal :=
  match extEntry cfg op with
  | some e => .next (runEntry e s)
  | none => exec (decodeByte op) s

/-- One ENGINE step while `ES = Running` (R87): the `CANCEL` check, or one opcode Fetch() and one dispatch.
The step that observes `CANCEL` is the one the waiting STOP returns from (R108; log entry 4). -/
def engineStep (cfg : Config.Params) (s : State) : Host.Outcome State Fault Refusal :=
  if s.CANCEL then .next ((endRun none s).reply .stopReturned)
  else
    let (op, s) := fetch s
    dispatch cfg op s

/-- The ENGINE's turn: "When `ES = Stopped` the ENGINE has no step: nothing is fetched and no state changes"
(R87; log entry 6). -/
def engineTurn (cfg : Config.Params) (s : State) : Host.Outcome State Fault Refusal :=
  match s.ES with
  | .running => engineStep cfg s
  | .stopped => .next s

/-- An effective STOP is waiting: the HOST is blocked and performs no other operation (R108). -/
def stopPending (s : State) : Bool := decide (s.ES = .running) && s.CANCEL

/-- The first turn of the agenda is taken. -/
def State.takeTurn (s : State) : State := { s with agenda := s.agenda.tail }

/-- One transition of the block (R6): the ENGINE's when the HOST is blocked in STOP or when the schedule
says so; otherwise the HOST's next operation. An empty agenda leaves every turn to the ENGINE (log entry 3). -/
def stepWith (cfg : Config.Params) (s : State) : Host.Outcome State Fault Refusal :=
  if stopPending s then engineStep cfg s
  else match s.agenda with
    | [] => engineTurn cfg s
    | .engine :: _ => engineTurn cfg s.takeTurn
    | .host op :: _ => hostStep cfg op s.takeTurn

/-- Put an instruction byte where the ENGINE fetches its next instruction, in a Running machine that is not
cancelled and whose next turn is the ENGINE's (log entry 10). -/
def placeInstruction (s : State) (b : Byte) : State :=
  { s with
    MEM := memWrite s.MEM (s.readReg .PC) b.toNat
    ES := .running
    LOADED := true
    CANCEL := false
    agenda := .engine :: s.agenda }

end Sys2Proof.Machine
end

