-- ==== Sys2Proof/Machine/Step.lean ====
section
/-! DEFINITION. The step of this hardware, and where it fetches from. -/

namespace Sys2Proof.Machine

/-- One transition of the block, with the parameters of this hardware: `EXT` empty (R99). -/
def step (s : State) : Host.Outcome State Fault Refusal := stepWith Config.hardware s

/-- `s` with the instruction that a table word stands for placed where the very next step fetches it; it
stands for LOAD and START of a program (log entry 10). -/
def State.withFetchWord (s : State) (nbits w : Nat) : State := placeInstruction s (tableByte nbits w)

end Sys2Proof.Machine
end

