-- ==== Sys2Proof/Machine/Flags.lean ====
section
/-! DEFINITION. The one flag the spec names, `P.I`, and what it masks: nothing (R12, R125). No instruction
computes a flag (R90, R91, R100). -/

namespace Sys2Proof.Machine

/-- The interrupt-disable flag of a value of `P`: bit 2 (R12). -/
def interruptDisable (p : Byte) : Bool := p.getLsbD 2

/-- `P.I` of a state (R12). -/
def State.flagI (s : State) : Bool := interruptDisable s.P

end Sys2Proof.Machine
end

