-- ==== Sys2Proof/Safety.lean ====
section
/-! DEFINITION. The words claims are stated in: the invariant of the block, whose turn it is, the HOST's
discipline, runs, and the acceptance of an image as the spec words it. -/

namespace Sys2Proof.Machine

/-- The register file a successful LOAD leaves and no ENGINE step of this hardware changes (R23, R102). -/
abbrev resetRegisters (s : State) : Prop :=
  s.A = 0x00 ∧ s.X = 0x00 ∧ s.Y = 0x00 ∧ s.SP = 0xFD ∧ s.P = 0x04

/-- What holds of every state this hardware reaches: `MEM` is canonical; the ENGINE runs, or has been
cancelled, only after a successful LOAD (R18, R106); after one, the register file holds its Reset()
values (R102). -/
abbrev Inv (s : State) : Prop :=
  s.MEM.wf ∧ (s.ES = .running → s.LOADED = true) ∧ (s.CANCEL = true → s.LOADED = true) ∧
    (s.LOADED = true → resetRegisters s)

/-- The next transition is an ENGINE step that fetches: Running, not cancelled, and no HOST operation is
first in the agenda (R87, R89). -/
abbrev engineNext (s : State) : Prop :=
  s.ES = .running ∧ s.CANCEL = false ∧ s.agenda.head?.getD .engine = .engine

/-- The next transition is the HOST's operation `op`: it is first in the agenda and the HOST is not blocked
in a STOP (R6, R108). -/
abbrev hostNext (s : State) (op : HostOp) : Prop :=
  stopPending s = false ∧ s.agenda.head? = some (.host op)

/-- A Running ENGINE that has not been cancelled, and a HOST that does nothing more (R88). -/
abbrev uninterrupted (s : State) : Prop := s.ES = .running ∧ s.CANCEL = false ∧ s.agenda = []

/-- The HOST's duty (R148): LOAD, RESET and POKE only while Stopped. -/
def HostOp.disciplined (op : HostOp) (s : State) : Bool :=
  match op with
  | .load _ | .reset | .poke _ _ => decide (s.ES = .stopped)
  | .start | .stop | .peek _ | .inspect => true

/-- `k` transitions, stopping at the first refusal. -/
def run : Nat → State → Host.Outcome State Fault Refusal
  | 0, s => .next s
  | k + 1, s =>
    match step s with
    | .next t => run k t
    | .fault r => .fault r
    | .refused r => .refused r

/-- The states this hardware reaches from power-on, with some power-on registers and some schedule (R22, R25). -/
inductive Reachable : State → Prop where
  | powerOn (a x y p : Byte) (pc : Addr) (agenda : List Turn) :
      Reachable { State.powerOn a x y p pc with agenda := agenda }
  | step (s t : State) : Reachable s → step s = .next t → Reachable t

/-- The address `k` bytes after `PC`, with 16-bit wraparound (R15). -/
def State.streamAddr (s : State) (k : Nat) : Nat := (s.PC.toNat + k) % 65536

/-- Nothing but 0x00 below the windows (R101). -/
abbrev lowMemoryZero (s : State) : Prop := ∀ i, i < 0x8000 → s.MEM.get i = 0x00

/-- `N`, "byte 4" of an image as a number (R65, R70). -/
def declaredBanks (image : List Byte) : Nat := (image.getD 4 0).toNat

/-- An image passes step 2: at least 16 bytes and the magic (R69). -/
abbrev passesFormat (image : List Byte) : Prop :=
  16 ≤ image.length ∧ image.take 4 = [0x4E, 0x45, 0x53, 0x1A]

/-- An image passes step 3: `len(image)` is not below `16 + N * 16384` (R70). -/
abbrev passesLength (image : List Byte) : Prop := 16 + declaredBanks image * 16384 ≤ image.length

/-- A LOAD of the image succeeds: it passes both checks and has at least one bank (R68, R73). -/
abbrev loadable (image : List Byte) : Prop :=
  passesFormat image ∧ passesLength image ∧ declaredBanks image ≠ 0

/-- The copy loop as the pseudocode of R68 writes it: `for i in 0 .. : MemWrite(base + i, 1, bytes[i])`. -/
def copyAscending (m : Memory) (base : Int) : List Byte → Memory
  | [] => m
  | b :: rest => copyAscending (memWrite m base b.toNat) (base + 1) rest

end Sys2Proof.Machine
end

