-- ==== Sys2Proof/Certificates/Slice0/Obligations.lean ====
section
/-! DEFINITION. The statements for the provers. Each docstring names the rules it formalises; `agenda` and
`replies` are the model's own fields (log entries 3 and 5), and so is the moment at which an effective STOP
returns, the ENGINE step that observes `CANCEL` (log entry 4). -/

open Sys2Proof Sys2Proof.Machine

/-! ## Memory and registers -/

/-- R33, the read-after-write law: after `MemWrite(a, 1, v)` every alias of `a` reads `v mod 256` and every
other address reads as before, for every integer address and value. -/
def Obligations.ReadAfterWriteReturnsMaskedValue : Prop :=
  ∀ (m : Memory) (a v : Int), m.wf →
    (∀ a' : Int, a' % 65536 = a % 65536 → ((memRead (memWrite m a v) a').toNat : Int) = v % 256) ∧
    (∀ b : Int, b % 65536 ≠ a % 65536 → memRead (memWrite m a v) b = memRead m b)

/-- R32: the masks are Euclidean remainders for every integer, negative ones included. -/
def Obligations.MasksAreEuclideanRemainders : Prop :=
  ∀ (m : Memory) (a v : Int),
    ((maskAddr a : Nat) : Int) = a % 65536 ∧ ((maskByte v).toNat : Int) = v % 256 ∧
    memRead m a = memRead m (a % 65536) ∧ memWrite m a v = memWrite m (a % 65536) (v % 256) ∧
    memRead m (-1) = m.get 65535 ∧ maskByte (-1) = 0xFF

/-- R31 and R113: a POKE while Stopped stores the masked value at the masked address, every other byte reads
as before, and nothing else changes; while Running it is refused. -/
def Obligations.PokeStoresOneMaskedByte : Prop :=
  ∀ (s : State) (a v : Int), s.MEM.wf → hostNext s (.poke a v) →
    (s.ES = .stopped → ∃ m : Memory,
      step s = .next { s with MEM := m, agenda := s.agenda.tail, replies := s.replies ++ [.pokeReturned] } ∧
      ∀ j < 65536, (m.get j) =
        if (j : Int) = a % 65536 then BitVec.ofInt 8 v else s.MEM.get j) ∧
    (s.ES = .running → step s = .refused .pokeWhileRunning)

/-- R30, R112 and R114: PEEK answers the byte at the masked address, INSPECT answers the register file and
`ES`; both are defined whether Stopped or Running, and change nothing. -/
def Obligations.PeekAndInspectOnlyAnswer : Prop :=
  (∀ (s : State) (a : Int), hostNext s (.peek a) →
    step s = .next { s with
      agenda := s.agenda.tail
      replies := s.replies ++ [.peeked (s.MEM.get (a % 65536).toNat)] }) ∧
  (∀ s : State, hostNext s .inspect →
    step s = .next { s with
      agenda := s.agenda.tail
      replies := s.replies ++
        [.inspected { A := s.A, X := s.X, Y := s.Y, P := s.P, SP := s.SP, PC := s.PC, ES := s.ES }] })

/-- R16: a register write keeps the value modulo 2 to the width, a read returns what is stored, in range, and
a write to one register changes no other state. -/
def Obligations.RegisterWritesMaskToWidth : Prop :=
  ∀ (s : State) (r : Reg) (v : Int),
    (((s.writeReg r v).readReg r : Nat) : Int) = v % 2 ^ r.width ∧
    s.readReg r < 2 ^ r.width ∧
    (∀ q : Reg, q ≠ r → (s.writeReg r v).readReg q = s.readReg q) ∧
    (s.writeReg r v).MEM = s.MEM ∧ (s.writeReg r v).ES = s.ES ∧ (s.writeReg r v).LOADED = s.LOADED ∧
    (s.writeReg r v).CANCEL = s.CANCEL ∧ (s.writeReg r v).STATUS = s.STATUS ∧
    (s.writeReg r v).agenda = s.agenda ∧ (s.writeReg r v).replies = s.replies

/-- R68's copy loop, written in ascending order, gives the same memory as the model's block copy (log entry 17). -/
def Obligations.BlockCopyOrderIsUnobservable : Prop :=
  ∀ (m : Memory) (base : Nat) (bytes : List Byte), m.wf → base + bytes.length ≤ 65536 →
    copyAscending m base bytes = writeBlock m base bytes

/-! ## Fetch and the ENGINE step -/

/-- R85 and R15: Fetch() reads the byte at `PC` and adds 1 to `PC` modulo 65536; at 0xFFFF it leaves 0x0000;
nothing else changes. -/
def Obligations.FetchReadsThenAdvances : Prop :=
  ∀ s : State,
    (fetch s).1 = s.MEM.get s.PC.toNat ∧
    (fetch s).2 = { s with PC := (fetch s).2.PC } ∧
    (fetch s).2.PC.toNat = (s.PC.toNat + 1) % 65536 ∧
    (s.PC = 0xFFFF → (fetch s).1 = s.MEM.get 0xFFFF ∧ (fetch s).2 = { s with PC := 0x0000 })

/-- R87 and R93, for every extension table: the ENGINE has a step only while Running; `CANCEL` is tested first and then
nothing is fetched; otherwise one opcode is fetched and dispatched: 0x00 is HLT whatever the table says, an entry
of the table runs its handler, every other opcode is SKP. -/
def Obligations.EngineStepTestsCancelThenFetchesThenDispatches : Prop :=
  ∀ (cfg : Config.Params) (s : State),
    (s.ES = .stopped → engineTurn cfg s = .next s) ∧
    (s.ES = .running → engineTurn cfg s = engineStep cfg s) ∧
    (s.CANCEL = true → ∃ rs, engineStep cfg s = .next { s with ES := .stopped, replies := rs }) ∧
    (s.CANCEL = false → s.MEM.get s.PC.toNat = 0x00 →
      engineStep cfg s = exec .hlt { s with PC := s.PC + 1 }) ∧
    (s.CANCEL = false → s.MEM.get s.PC.toNat ≠ 0x00 → ∀ e, cfg.ext (s.MEM.get s.PC.toNat) = some e →
      engineStep cfg s = .next (runEntry e { s with PC := s.PC + 1 })) ∧
    (s.CANCEL = false → s.MEM.get s.PC.toNat ≠ 0x00 → cfg.ext (s.MEM.get s.PC.toNat) = none →
      engineStep cfg s = exec (.skp (s.MEM.get s.PC.toNat)) { s with PC := s.PC + 1 })

/-- When the byte at `PC` decodes to an instruction and the ENGINE moves next, the step is that instruction's
`exec`, on the state whose `PC` has moved past the byte and whose agenda has given up the turn. -/
def Obligations.StepRunsTheDecodedInstruction : Prop :=
  ∀ (s : State) (i : Instr), engineNext s → decode [s.MEM.get s.PC.toNat] = .ok (i, []) →
    step s = exec i { s with PC := s.PC + 1, agenda := s.agenda.tail }

/-- R90: HLT answers a next state: Stopped, `Halted(PC)` appended, nothing else changed. (b) As a step, `PC` is
the address of the 0x00 byte plus 1; (a) and then the ENGINE fetches no more; (c) a START after it goes on
at that `PC`; (d) with `CANCEL` set the byte is not consumed; (e) memory never written holds HLT. -/
def Obligations.HaltStopsTheRun : Prop :=
  (∀ s : State, exec .hlt s = .next { s with ES := .stopped, STATUS := s.STATUS ++ [.halted s.PC] }) ∧
  (∀ s : State, engineNext s → s.MEM.get s.PC.toNat = 0x00 →
    ∃ t, step s = .next t ∧
      t = { s with
        PC := s.PC + 1, ES := .stopped, STATUS := s.STATUS ++ [.halted (s.PC + 1)]
        agenda := s.agenda.tail } ∧
      engineTurn Config.hardware t = .next t ∧
      (s.LOADED = true → (hostStart t).ES = .running ∧ (hostStart t).PC = s.PC + 1)) ∧
  (∀ s : State, s.ES = .running → s.CANCEL = true → s.MEM.get s.PC.toNat = 0x00 →
    ∃ t, step s = .next t ∧ t.ES = .stopped ∧ t.PC = s.PC) ∧
  (∀ i : Nat, decodeByte (Memory.get [] i) = .hlt)

/-- R91: SKP answers a next state, the one it was given, for every opcode byte; as a step its only effect is
the advance of `PC`, whichever of the 255 values the byte has; (c) at 0xFFFF the run goes on at 0x0000; (d) whatever
the HOST does but LOAD and RESET, any number of transitions leaves the five other registers as they were, so at
their Reset() values if they held them (a sentence R91 marks as derived; from power-on on, RegisterFileAfterAnyRun). -/
def Obligations.SkipOnlyAdvancesThePC : Prop :=
  (∀ (op : Byte) (s : State), exec (.skp op) s = .next s) ∧
  (∀ s : State, engineNext s → s.MEM.get s.PC.toNat ≠ 0x00 →
    step s = .next { s with PC := s.PC + 1, agenda := s.agenda.tail }) ∧
  (∀ s : State, engineNext s → s.MEM.get s.PC.toNat ≠ 0x00 → s.PC = 0xFFFF →
    ∃ t, step s = .next t ∧ t.PC = 0x0000 ∧ t.ES = .running) ∧
  (∀ (s t : State) (k : Nat), (∀ image, Turn.host (.load image) ∉ s.agenda) → Turn.host .reset ∉ s.agenda →
    run k s = .next t →
    t.A = s.A ∧ t.X = s.X ∧ t.Y = s.Y ∧ t.SP = s.SP ∧ t.P = s.P ∧ (resetRegisters s → resetRegisters t))

/-- The frame of HLT and of every SKP: no register (`SP` and `PC` included; `PC` moved in the fetch), no flag, no control
bit but `ES`, and no byte of memory changes. -/
def Obligations.InstructionFrame : Prop :=
  ∀ (i : Instr) (s t : State), exec i s = .next t →
    t.A = s.A ∧ t.X = s.X ∧ t.Y = s.Y ∧ t.SP = s.SP ∧ t.P = s.P ∧ t.flagI = s.flagI ∧ t.PC = s.PC ∧
    t.LOADED = s.LOADED ∧ t.CANCEL = s.CANCEL ∧ t.agenda = s.agenda ∧ t.replies = s.replies ∧
    (∀ a : Int, memRead t.MEM a = memRead s.MEM a) ∧
    (i ≠ .hlt → t.ES = s.ES ∧ t.STATUS = s.STATUS)

/-- A byte placed by `withFetchWord` is the instruction the very next step runs (the model's convention, log entry 10). -/
def Obligations.PlacedWordRunsNext : Prop :=
  ∀ (s : State) (b : Byte), s.MEM.wf →
    step (s.withFetchWord 8 b.toNat) =
      exec (decodeByte b) { s with
        MEM := memWrite s.MEM s.PC.toNat b.toNat, PC := s.PC + 1
        ES := .running, LOADED := true, CANCEL := false }

/-- R135: while Stopped and until the HOST acts, no number of turns changes any state. -/
def Obligations.StoppedEngineNeverMoves : Prop :=
  ∀ (s : State) (k : Nat), s.ES = .stopped → s.agenda = [] → run k s = .next s

/-- R41: a byte the HOST pokes at `PC` is what the first fetch after START returns, and so what the ENGINE runs: a HLT when
the byte is 0x00, a SKP otherwise. -/
def Obligations.PokedByteIsFetched : Prop :=
  ∀ (s : State) (v : Int) (rest : List Turn),
    s.MEM.wf → s.ES = .stopped → s.LOADED = true →
    s.agenda = .host (.poke s.PC.toNat v) :: .host .start :: .engine :: rest →
    ∃ u t, run 2 s = .next u ∧ u.ES = .running ∧ u.PC = s.PC ∧ (fetch u).1 = BitVec.ofInt 8 v ∧
      run 3 s = .next t ∧ t.PC = s.PC + 1 ∧ (t.ES = .stopped ↔ v % 256 = 0) ∧
      exec (decodeByte (BitVec.ofInt 8 v)) { u with PC := u.PC + 1, agenda := rest } = .next t

/-! ## Encoding -/

/-- R51, with the map of R52: the opcode of the instruction at `a` is `MEM[a]`, and every byte value decodes, as a
function of the byte alone, to exactly one of the two instructions: 0x00 to HLT, every other byte to SKP; the
bytes after it are left. -/
def Obligations.EveryByteDecodes : Prop :=
  (∀ (s : State) (a : Addr), (fetch { s with PC := a }).1 = s.MEM.get a.toNat) ∧
  ∀ (b : Byte) (rest : List Byte),
    decode (b :: rest) = .ok (if b = 0x00 then .hlt else .skp b, rest) ∧ (decodeByte b).wellFormed = true

/-- Words written out from the bit patterns of R52. -/
def Obligations.WrittenOutWordsDecode : Prop :=
  decode [0b00000000#8] = .ok (.hlt, []) ∧ decode [0b00000001#8] = .ok (.skp 0x01, []) ∧
  decode [0b10000000#8] = .ok (.skp 0x80, []) ∧ decode [0b11111111#8] = .ok (.skp 0xFF, []) ∧
  decode [0b11101010#8, 0b00000000#8] = .ok (.skp 0xEA, [0x00]) ∧
  decodeTableWord 8 0 = some .hlt ∧ decodeTableWord 8 0x40 = some (.skp 0x40)

/-- The nine rows of the opcode table are pairwise disjoint, cover all 256 values, and the one row a byte selects has the
mnemonic of the instruction the byte decodes to (R57). -/
def Obligations.OpcodeTableSelectsTheDecodedInstruction : Prop :=
  opcodeTable.length = 9 ∧
  ∀ b : Byte, (opcodeTable.filter (fun r => r.selects b)).map OpRow.mnemonic = [(decodeByte b).mnemonic]

/-- Decoding and encoding agree on whole instruction streams, in both directions: no bit of an encoding is dropped, and a
stream of bytes is one instruction a byte (R50, R53). -/
def Obligations.StreamsRoundTrip : Prop :=
  (∀ is : List Instr, (∀ i ∈ is, i.wellFormed = true) → decodeStream (encodeStream is) = is) ∧
  (∀ bs : List Byte, encodeStream (decodeStream bs) = bs ∧ (decodeStream bs).length = bs.length ∧
    ∀ i ∈ decodeStream bs, i.wellFormed = true)

/-! ## Runs -/

/-- An uninterrupted run fetches at `PC, PC+1, ...` and ends at the first 0x00 byte, `d` bytes on, after exactly
`d + 1` steps, with `PC` after that byte and nothing but `PC`, `ES` and `STATUS` changed. -/
def Obligations.RunStopsAtTheFirstHaltByte : Prop :=
  ∀ (s : State) (d : Nat), uninterrupted s →
    (∀ k < d, s.MEM.get (s.streamAddr k) ≠ 0x00) → s.MEM.get (s.streamAddr d) = 0x00 →
    (∀ k ≤ d, run k s = .next { s with PC := s.PC + BitVec.ofNat 16 k }) ∧
    run (d + 1) s = .next { s with
      PC := s.PC + BitVec.ofNat 16 (d + 1), ES := .stopped
      STATUS := s.STATUS ++ [.halted (s.PC + BitVec.ofNat 16 (d + 1))] }

/-- Where nothing but 0x00 stands below the windows, an uninterrupted run from `p` ends by HLT: after exactly one fetch
when `p < 0x8000`, and after at most `(0x10000 - p) + 1` fetches, so at most 32769, otherwise (R101). -/
def Obligations.RunIsBoundedWhenLowMemoryIsZero : Prop :=
  ∀ s : State, uninterrupted s → lowMemoryZero s →
    ∃ (k : Nat) (t : State), run k s = .next t ∧ t.ES = .stopped ∧ 1 ≤ k ∧ k ≤ 32769 ∧
      (s.PC.toNat < 0x8000 → k = 1) ∧
      (0x8000 ≤ s.PC.toNat → k ≤ (0x10000 - s.PC.toNat) + 1) ∧
      t.PC.toNat = (s.PC.toNat + k) % 65536 ∧ t.MEM = s.MEM ∧ t.STATUS = s.STATUS ++ [.halted t.PC]

/-- An uninterrupted run goes on for ever exactly when no byte of `MEM` is 0x00 (R101). -/
def Obligations.RunDivergesExactlyWithoutHaltByte : Prop :=
  ∀ s : State, uninterrupted s →
    ((∀ k, ∃ t, run k s = .next t ∧ t.ES = .running) ↔ ∀ i < 65536, s.MEM.get i ≠ 0x00)

/-- R102: in every reachable state after a successful LOAD the register file holds its Reset() values; while Running, a
step changes nothing but `PC`, `ES`, `CANCEL`, `STATUS` (and the model's own fields); a run of `k` fetches from
`p` ends with `PC = (p + k) mod 65536`. -/
def Obligations.RegisterFileAfterAnyRun : Prop :=
  (∀ s : State, Reachable s → s.LOADED = true →
    s.A = 0x00 ∧ s.X = 0x00 ∧ s.Y = 0x00 ∧ s.SP = 0xFD ∧ s.P = 0x04) ∧
  (∀ s t : State, s.ES = .running → step s = .next t →
    t = { s with
      PC := t.PC, ES := t.ES, CANCEL := t.CANCEL, STATUS := t.STATUS
      agenda := t.agenda, replies := t.replies }) ∧
  (∀ (s t : State) (k : Nat), uninterrupted s →
    (∀ j < k, ∃ u, run j s = .next u ∧ u.ES = .running) → run k s = .next t →
    t.PC.toNat = (s.PC.toNat + k) % 65536)

/-! ## Whole-machine rules and invariants -/

/-- The invariant holds at State.reset, and of the power-on state whatever its registers and schedule. -/
def Obligations.InvariantHoldsAtResetAndPowerOn : Prop :=
  Inv State.reset ∧ ∀ (a x y p : Byte) (pc : Addr) (agenda : List Turn),
    Inv { State.powerOn a x y p pc with agenda := agenda }

/-- Every step keeps the invariant: canonical memory; Running or cancelled only after a successful LOAD; after one, the
register file at its Reset() values. -/
def Obligations.StepKeepsInvariant : Prop :=
  ∀ s t : State, Inv s → step s = .next t → Inv t

/-- R122: a step leaves Running only because a stop request was observed or the halt opcode was fetched, and in
both cases it does leave it; and it leaves Stopped only by a START with a cartridge loaded. -/
def Obligations.ExecutionStateChangesOnlyAsListed : Prop :=
  ∀ s t : State, step s = .next t →
    (s.ES = .running → t.ES = .stopped → s.CANCEL = true ∨ (engineNext s ∧ s.MEM.get s.PC.toNat = 0x00)) ∧
    (s.ES = .running → s.CANCEL = true ∨ (engineNext s ∧ s.MEM.get s.PC.toNat = 0x00) → t.ES = .stopped) ∧
    (s.ES = .stopped → t.ES = .running → hostNext s .start ∧ s.LOADED = true)

/-- R127, the end of a run ("trap entry"): a step that leaves Running saves nothing and writes no register, no byte of memory
and no mode but `ES`. Either a stop request was observed, and `PC` keeps its value; or HLT has completed in full, and
`PC` is the address after its byte. That the waiting STOP returns in the same step is the model's choice (log entry 4),
not R127's. -/
def Obligations.EndOfRunIsPreciseAndSavesNothing : Prop :=
  ∀ s t : State, s.ES = .running → step s = .next t → t.ES = .stopped →
    (s.CANCEL = true ∧ t = { s with ES := .stopped, replies := s.replies ++ [.stopReturned] }) ∨
    (engineNext s ∧ s.MEM.get s.PC.toNat = 0x00 ∧
      t = { s with
        PC := s.PC + 1, ES := .stopped, STATUS := s.STATUS ++ [.halted (s.PC + 1)]
        agenda := s.agenda.tail })

/-- `A`, `X`, `Y`, `SP` and `P` are written only by Reset(), that is by RESET and by a LOAD, while Stopped; whatever else a
step is, it leaves the five alone (R11, R12, R13). -/
def Obligations.RegisterFileWrittenOnlyByReset : Prop :=
  ∀ s t : State, step s = .next t →
    (t.A = s.A ∧ t.X = s.X ∧ t.Y = s.Y ∧ t.SP = s.SP ∧ t.P = s.P) ∨
    (s.ES = .stopped ∧ (hostNext s .reset ∨ ∃ image, hostNext s (.load (some image)) ∧ loadable image) ∧
      resetRegisters t)

/-- `PC` is written by exactly two things: Fetch(), which adds 1 while Running, and Reset(), which loads the vector while
Stopped (R14, R92). -/
def Obligations.ProgramCounterWrittenOnlyByFetchAndReset : Prop :=
  ∀ s t : State, step s = .next t →
    t.PC = s.PC ∨ (engineNext s ∧ t.PC = s.PC + 1) ∨
    (s.ES = .stopped ∧ (hostNext s .reset ∨ ∃ image, hostNext s (.load (some image)) ∧ loadable image) ∧
      t.PC.toNat = (t.MEM.get 0xFFFD).toNat * 256 + (t.MEM.get 0xFFFC).toNat)

/-- `MEM` is written only by POKE and by a successful LOAD, both while Stopped: the ENGINE only reads it; and below the
windows only POKE writes (R10, R21, R37, R40). -/
def Obligations.MemoryWrittenOnlyByPokeAndLoad : Prop :=
  ∀ s t : State, s.MEM.wf → step s = .next t →
    t.MEM = s.MEM ∨
    (s.ES = .stopped ∧ ∃ a v, hostNext s (.poke a v) ∧
      ∀ b : Int, b % 65536 ≠ a % 65536 → memRead t.MEM b = memRead s.MEM b) ∨
    (s.ES = .stopped ∧ ∃ image, hostNext s (.load (some image)) ∧ loadable image ∧
      ∀ j < 0x8000, t.MEM.get j = s.MEM.get j)

/-- A HOST that never pokes never changes a byte below 0x8000, however many transitions are taken (R101, R40). -/
def Obligations.LowMemoryIsConstantWithoutPoke : Prop :=
  ∀ (s t : State) (k : Nat), s.MEM.wf → (∀ a v, Turn.host (.poke a v) ∉ s.agenda) → run k s = .next t →
    ∀ j < 0x8000, t.MEM.get j = s.MEM.get j

/-- `STATUS` is append-only and a step appends at most one event; a RunFailed is never appended, `EXT` being empty
(R24, R126, R96). -/
def Obligations.StatusIsAppendOnly : Prop :=
  ∀ s t : State, step s = .next t →
    ∃ events : List StatusEvent, t.STATUS = s.STATUS ++ events ∧ events.length ≤ 1 ∧ .runFailed ∉ events

/-- `LOADED` is set only by a successful LOAD and never cleared; `CANCEL` is set only by a STOP while Running and
cleared only by a START that takes effect (R18, R19). -/
def Obligations.LoadedAndCancelChangeOnlyAsListed : Prop :=
  ∀ s t : State, step s = .next t →
    (s.LOADED = true → t.LOADED = true) ∧
    (s.LOADED = false → t.LOADED = true →
      s.ES = .stopped ∧ ∃ image, hostNext s (.load (some image)) ∧ loadable image) ∧
    (s.CANCEL = false → t.CANCEL = true → s.ES = .running ∧ hostNext s .stop) ∧
    (s.CANCEL = true → t.CANCEL = false → s.ES = .stopped ∧ s.LOADED = true ∧ hostNext s .start)

/-- Without a LOAD nothing ever runs: from power-on, a HOST that never loads keeps the ENGINE Stopped, whatever else it
does (R106, R140, R147). -/
def Obligations.NothingRunsWithoutALoad : Prop :=
  ∀ (a x y p : Byte) (pc : Addr) (agenda : List Turn) (k : Nat) (t : State),
    (∀ image, Turn.host (.load image) ∉ agenda) →
    run k { State.powerOn a x y p pc with agenda := agenda } = .next t →
    t.ES = .stopped ∧ t.LOADED = false ∧ t.CANCEL = false

/-- R22: the power-on values; and no ENGINE step, and nothing but an INSPECT before the first successful LOAD, ever reads a
power-on register: two power-on states with different `A`, `X`, `Y`, `P`, `PC` and the same schedule, in which every
INSPECT that is performed comes after a successful LOAD, run alike, and are the same state from that LOAD on. -/
def Obligations.PowerOnRegistersAreNeverRead : Prop :=
  (∀ (a x y p : Byte) (pc : Addr),
    (∀ i : Nat, (State.powerOn a x y p pc).MEM.get i = 0x00) ∧
    (State.powerOn a x y p pc).SP = 0xFD ∧ (State.powerOn a x y p pc).ES = .stopped ∧
    (State.powerOn a x y p pc).LOADED = false ∧ (State.powerOn a x y p pc).CANCEL = false ∧
    (State.powerOn a x y p pc).STATUS = []) ∧
  (∀ (a x y p a' x' y' p' : Byte) (pc pc' : Addr) (agenda : List Turn) (k : Nat) (t : State),
    (∀ (j : Nat) (u : State), j < k → run j { State.powerOn a x y p pc with agenda := agenda } = .next u →
      hostNext u .inspect → u.LOADED = true) →
    run k { State.powerOn a x y p pc with agenda := agenda } = .next t →
    ∃ t', run k { State.powerOn a' x' y' p' pc' with agenda := agenda } = .next t' ∧
      t' = { t with A := t'.A, X := t'.X, Y := t'.Y, P := t'.P, PC := t'.PC } ∧
      (t.LOADED = true → t' = t))

/-- Which steps are refused: a LOAD, RESET or POKE while Running, and a LOAD of an image that passes the checks with bank
count 0. Every other step answers a next state (R73, R117, R148). -/
def Obligations.StepsCompleteUnlessTheHostViolatesItsDuty : Prop :=
  ∀ s : State,
    (∀ op, hostNext s op → op.disciplined s = true →
      (∀ image, op = .load (some image) → ¬ (passesFormat image ∧ passesLength image ∧ declaredBanks image = 0)) →
      ∃ t, step s = .next t) ∧
    ((∀ op, ¬ hostNext s op) → ∃ t, step s = .next t) ∧
    (∀ image, hostNext s (.load image) → s.ES = .running → step s = .refused .loadWhileRunning) ∧
    (hostNext s .reset → s.ES = .running → step s = .refused .resetWhileRunning) ∧
    (∀ a v, hostNext s (.poke a v) → s.ES = .running → step s = .refused .pokeWhileRunning) ∧
    (∀ image, hostNext s (.load (some image)) → s.ES = .stopped →
      passesFormat image → passesLength image → declaredBanks image = 0 →
      step s = .refused .loadBankCountZero)

/-! ## Reset() -/

/-- R142, for every RESET_SP and RESET_P, whose values on this hardware are 0xFD and 0x04: Reset() sets `A`, `X`, `Y` to
zero, `SP` and `P` to the parameters, `PC` to the little-endian vector, appends one ResetDone event, and writes
nothing else. -/
def Obligations.ResetSetsTheRegisterFile : Prop :=
  Config.hardware.resetSP = 0xFD ∧ Config.hardware.resetP = 0x04 ∧
  ∀ (cfg : Config.Params) (s t : State), doReset cfg s = t →
    t.A = 0x00 ∧ t.X = 0x00 ∧ t.Y = 0x00 ∧ t.SP = cfg.resetSP ∧ t.P = cfg.resetP ∧
    t.PC.toNat = ((s.MEM.get 0xFFFD).toNat <<< 8 ||| (s.MEM.get 0xFFFC).toNat) ∧
    t.STATUS = s.STATUS ++ [.resetDone t.PC t.SP] ∧
    t.MEM = s.MEM ∧ t.ES = s.ES ∧ t.LOADED = s.LOADED ∧ t.CANCEL = s.CANCEL ∧ t.agenda = s.agenda ∧
    t.replies = s.replies

/-- The HOST operation RESET while Stopped runs Reset() and nothing else (R115); on this hardware it leaves `SP = 0xFD` and
`P = 0x04`, that is `P.I` set and the other seven bits clear (R12). While Running it is refused (R148). -/
def Obligations.ResetOperationRunsReset : Prop :=
  ∀ s : State, hostNext s .reset →
    (s.ES = .stopped → ∃ t, step s = .next t ∧
      t = (doReset Config.hardware { s with agenda := s.agenda.tail }).reply .resetReturned ∧
      t.SP = 0xFD ∧ t.P = 0x04 ∧ t.flagI = true ∧ (∀ i < 8, i ≠ 2 → t.P.getLsbD i = false) ∧
      t.MEM = s.MEM ∧ t.ES = .stopped ∧ t.LOADED = s.LOADED ∧ t.CANCEL = s.CANCEL) ∧
    (s.ES = .running → step s = .refused .resetWhileRunning)

/-- R145: vector bytes low 0x00, high 0x90 give `PC = 0x9000`. -/
def Obligations.ResetVectorExample : Prop :=
  ∀ (cfg : Config.Params) (s : State), s.MEM.get 0xFFFC = 0x00 → s.MEM.get 0xFFFD = 0x90 →
    (doReset cfg s).PC = 0x9000

/-- State.reset is what RESET makes of a power-on state, whatever its unspecified registers held (the model's choice of the
reset state, log entry 1). -/
def Obligations.ResetStateIsResetOfPowerOn : Prop :=
  ∀ (a x y p : Byte) (pc : Addr),
    step { State.powerOn a x y p pc with agenda := [.host .reset] } =
      .next { State.reset with replies := [.resetReturned] }

/-! ## LOAD -/

/-- R69, R70, R71, R75 and R80: a LOAD while Stopped fails with exactly one error kind, in the order IoError, FormatError,
TruncatedError, and then changes `STATUS` only. -/
def Obligations.LoadFailuresChangeOnlyStatus : Prop :=
  ∀ s : State, s.ES = .stopped →
    (hostNext s (.load none) →
      step s = .next { s with
        STATUS := s.STATUS ++ [.loadFailed .ioError], agenda := s.agenda.tail
        replies := s.replies ++ [.loaded (.fail .ioError)] }) ∧
    (∀ image, hostNext s (.load (some image)) → ¬ passesFormat image →
      step s = .next { s with
        STATUS := s.STATUS ++ [.loadFailed .formatError], agenda := s.agenda.tail
        replies := s.replies ++ [.loaded (.fail .formatError)] }) ∧
    (∀ image, hostNext s (.load (some image)) → passesFormat image → ¬ passesLength image →
      step s = .next { s with
        STATUS := s.STATUS ++ [.loadFailed .truncatedError], agenda := s.agenda.tail
        replies := s.replies ++ [.loaded (.fail .truncatedError)] })

/-- R72 and R77: a successful LOAD puts bank 1 at 0x8000 and, at 0xC000, bank 1 again when `N = 1` and bank 2 when
`N >= 2` (3 to 255 included); every byte below 0x8000 stays. -/
def Obligations.LoadMapsTheBanks : Prop :=
  ∀ (s : State) (image : List Byte), s.MEM.wf → s.ES = .stopped → hostNext s (.load (some image)) →
    loadable image →
    ∃ t, step s = .next t ∧
      (∀ i < 16384, image[16 + i]? = some (t.MEM.get (0x8000 + i))) ∧
      (declaredBanks image = 1 → ∀ i < 16384, image[16 + i]? = some (t.MEM.get (0xC000 + i))) ∧
      (2 ≤ declaredBanks image → ∀ i < 16384, image[16 + 16384 + i]? = some (t.MEM.get (0xC000 + i))) ∧
      (∀ j < 0x8000, t.MEM.get j = s.MEM.get j)

/-- R82: a one-bank image of content `B` leaves both windows equal to `B`, a two-bank image leaves them equal to `B1` and
`B2`, for all banks and all header bytes after the count. -/
def Obligations.WindowsEqualTheBanks : Prop :=
  (∀ (s : State) (header B : List Byte), s.MEM.wf → s.ES = .stopped → header.length = 11 → B.length = 16384 →
    hostNext s (.load (some ([0x4E, 0x45, 0x53, 0x1A, 0x01] ++ header ++ B))) →
    ∃ t, step s = .next t ∧
      (List.range 16384).map (fun i => t.MEM.get (0x8000 + i)) = B ∧
      (List.range 16384).map (fun i => t.MEM.get (0xC000 + i)) = B) ∧
  (∀ (s : State) (header B1 B2 : List Byte), s.MEM.wf → s.ES = .stopped → header.length = 11 →
    B1.length = 16384 → B2.length = 16384 →
    hostNext s (.load (some ([0x4E, 0x45, 0x53, 0x1A, 0x02] ++ header ++ B1 ++ B2))) →
    ∃ t, step s = .next t ∧
      (List.range 16384).map (fun i => t.MEM.get (0x8000 + i)) = B1 ∧
      (List.range 16384).map (fun i => t.MEM.get (0xC000 + i)) = B2)

/-- R74 and R83: a successful LOAD sets `LOADED`, runs Reset() after the copies, so that `PC` is the vector in the bank just
mapped in window 1, answers success, and leaves `ES` Stopped and `CANCEL` alone. -/
def Obligations.LoadResetsFromTheMappedVector : Prop :=
  ∀ (s : State) (image : List Byte), s.MEM.wf → s.ES = .stopped → hostNext s (.load (some image)) →
    loadable image →
    ∃ t low high, step s = .next t ∧
      image[16 + (if declaredBanks image = 1 then 0 else 16384) + 0x3FFC]? = some low ∧
      image[16 + (if declaredBanks image = 1 then 0 else 16384) + 0x3FFD]? = some high ∧
      t.PC.toNat = (high.toNat <<< 8 ||| low.toNat) ∧
      t.A = 0x00 ∧ t.X = 0x00 ∧ t.Y = 0x00 ∧ t.SP = 0xFD ∧ t.P = 0x04 ∧ t.LOADED = true ∧
      t.ES = .stopped ∧ t.CANCEL = s.CANCEL ∧ t.STATUS = s.STATUS ++ [.resetDone t.PC t.SP] ∧
      t.agenda = s.agenda.tail ∧ t.replies = s.replies ++ [.loaded .success]

/-- R79: two accepted images that agree on bytes 0..4 and on the mapped banks load alike, whatever bytes 5..15 and the bytes
after the program data are, and however many those are. -/
def Obligations.LoadIgnoresTheUnreadBytes : Prop :=
  ∀ (s : State) (image image' : List Byte), s.ES = .stopped → loadable image → loadable image' →
    (∀ i < 5, image[i]? = image'[i]?) →
    (∀ i, 16 ≤ i → i < 16 + 16384 * declaredBanks image → i < 32784 → image[i]? = image'[i]?) →
    hostStep Config.hardware (.load (some image)) s = hostStep Config.hardware (.load (some image')) s

/-- R76: a second successful LOAD leaves exactly the memory and registers it would have left without the first one: no trace
of the earlier image remains, and below 0x8000 all stays as it was. -/
def Obligations.ReloadLeavesNoTraceOfTheFirstImage : Prop :=
  ∀ (s : State) (first second : List Byte), s.MEM.wf → s.ES = .stopped → loadable first → loadable second →
    ∃ t u, run 2 { s with agenda := [.host (.load (some first)), .host (.load (some second))] } = .next t ∧
      run 1 { s with agenda := [.host (.load (some second))] } = .next u ∧
      t.MEM = u.MEM ∧ t.PC = u.PC ∧ resetRegisters t ∧ ∀ j < 0x8000, t.MEM.get j = s.MEM.get j

/-- Mirroring is a copy, not an address alias, and the windows are writable: after a one-bank LOAD a POKE to 0x8000 + i
changes that byte and not 0xC000 + i (R46, R78). -/
def Obligations.MirrorIsACopy : Prop :=
  ∀ (s : State) (image : List Byte) (i : Nat) (v : Int), s.MEM.wf → s.ES = .stopped → loadable image →
    declaredBanks image = 1 → i < 16384 →
    ∃ t u, run 1 { s with agenda := [.host (.load (some image)), .host (.poke (0x8000 + i) v)] } = .next t ∧
      run 2 { s with agenda := [.host (.load (some image)), .host (.poke (0x8000 + i) v)] } = .next u ∧
      t.MEM.get (0x8000 + i) = t.MEM.get (0xC000 + i) ∧
      u.MEM.get (0x8000 + i) = BitVec.ofInt 8 v ∧ u.MEM.get (0xC000 + i) = t.MEM.get (0xC000 + i)

/-- R84, the worked example: the image of 16400 bytes whose vector bytes are 00 90 and whose other bytes after the count are
0xEA. -/
def Obligations.WorkedExampleImageLoads : Prop :=
  ∀ s : State, s.MEM.wf → s.ES = .stopped →
    ∀ (bank image : List Byte), bank = List.replicate 0x3FFC 0xEA ++ [0x00, 0x90, 0xEA, 0xEA] →
    image = [0x4E, 0x45, 0x53, 0x1A, 0x01] ++ List.replicate 11 0xEA ++ bank →
    hostNext s (.load (some image)) →
    image.length = 16400 ∧ ∃ t, step s = .next t ∧ t.replies = s.replies ++ [.loaded .success] ∧
      (∀ i < 16384, bank[i]? = some (t.MEM.get (0x8000 + i)) ∧ bank[i]? = some (t.MEM.get (0xC000 + i))) ∧
      t.MEM.get 0xFFFC = 0x00 ∧ t.MEM.get 0xFFFD = 0x90 ∧ t.PC = 0x9000 ∧
      t.A = 0x00 ∧ t.X = 0x00 ∧ t.Y = 0x00 ∧ t.SP = 0xFD ∧ t.P = 0x04 ∧ t.LOADED = true ∧ t.ES = .stopped

/-! ## START and STOP -/

/-- R106 and R107: START takes effect exactly when Stopped with a cartridge loaded, and then writes `CANCEL` and `ES` only;
otherwise it appends its warning and changes nothing else. -/
def Obligations.StartTakesEffectOrIsIgnored : Prop :=
  ∀ s : State, hostNext s .start →
    (s.ES = .stopped → s.LOADED = true →
      step s = .next { s with
        CANCEL := false, ES := .running, agenda := s.agenda.tail
        replies := s.replies ++ [.startReturned] }) ∧
    (s.ES = .running →
      step s = .next { s with
        STATUS := s.STATUS ++ [.startIgnored .alreadyRunning], agenda := s.agenda.tail
        replies := s.replies ++ [.startReturned] }) ∧
    (s.ES = .stopped → s.LOADED = false →
      step s = .next { s with
        STATUS := s.STATUS ++ [.startIgnored .noCartridge], agenda := s.agenda.tail
        replies := s.replies ++ [.startReturned] })

/-- R108: an effective STOP is the request, then exactly one ENGINE step that fetches nothing, during which the HOST is blocked
whatever the agenda holds; the run ends with `PC` at the next unfetched byte and `CANCEL` set, and only a START
clears it. R108 puts the return after that ENGINE step; that `stopReturned` is appended in the step itself is the
model's choice (log entry 4). -/
def Obligations.StopRequestsAndTheNextStepEndsTheRun : Prop :=
  (∀ s : State, hostNext s .stop → s.ES = .running →
    ∃ u t, step s = .next u ∧ u = { s with CANCEL := true, agenda := s.agenda.tail } ∧
      step u = .next t ∧
      t = { s with
        CANCEL := true, ES := .stopped, agenda := s.agenda.tail
        replies := s.replies ++ [.stopReturned] }) ∧
  (∀ s t : State, step s = .next t → s.CANCEL = true → t.CANCEL = false → hostNext s .start)

/-- R109: a STOP while Stopped changes no state; whether it appends StopIgnored is open. -/
def Obligations.StopWhileStoppedIsIgnored : Prop :=
  ∀ s : State, hostNext s .stop → s.ES = .stopped →
    ∃ log, (log = s.STATUS ∨ log = s.STATUS ++ [.stopIgnored]) ∧
      step s = .next { s with
        STATUS := log, agenda := s.agenda.tail, replies := s.replies ++ [.stopReturned] }

/-- R116: START, then any number of ENGINE turns, then STOP always ends Stopped with both calls returned (in which step the STOP
returns is the model's choice, log entry 4); STOP when already
Stopped changes neither `ES` nor `CANCEL`; a second START leaves the ENGINE as the first left it. -/
def Obligations.StartThenStopEndsStopped : Prop :=
  (∀ (s : State) (k : Nat), s.ES = .stopped →
    s.agenda = .host .start :: (List.replicate k .engine ++ [.host .stop]) →
    ∃ t, run (k + 3) s = .next t ∧ t.ES = .stopped ∧ t.agenda = [] ∧
      t.replies = s.replies ++ [.startReturned, .stopReturned]) ∧
  (∀ s : State, hostNext s .stop → s.ES = .stopped →
    ∃ t, step s = .next t ∧ t.ES = .stopped ∧ t.CANCEL = s.CANCEL) ∧
  (∀ (s : State) (rest : List Turn), s.ES = .stopped → s.LOADED = true →
    s.agenda = .host .start :: .host .start :: rest →
    ∃ t u, run 1 s = .next t ∧ run 2 s = .next u ∧
      u = { t with STATUS := u.STATUS, agenda := rest, replies := u.replies } ∧ u.ES = .running)

/-- R110: START continues, it does not restart: after HLT at `h` the next run begins at `h + 1`; after a STOP it begins at the
first byte not yet fetched (that the HOST may act in the transition after the one that observes `CANCEL` is the model's
choice, log entry 4). -/
def Obligations.StartContinuesWhereTheRunStopped : Prop :=
  (∀ (s : State) (rest : List Turn), s.ES = .running → s.CANCEL = false → s.LOADED = true →
    s.MEM.get s.PC.toNat = 0x00 → s.agenda = .engine :: .host .start :: rest →
    ∃ t, run 2 s = .next t ∧ t.ES = .running ∧ t.CANCEL = false ∧
      t.PC.toNat = (s.PC.toNat + 1) % 65536) ∧
  (∀ (s : State) (rest : List Turn), s.ES = .running → s.CANCEL = false → s.LOADED = true →
    s.agenda = .host .stop :: .host .start :: rest →
    ∃ t, run 3 s = .next t ∧ t.ES = .running ∧ t.CANCEL = false ∧ t.PC = s.PC)

/-! ## The extension contract -/

/-- R94: operand bytes are consumed by Fetch(), so they are the bytes at ascending addresses from `PC`, with 16-bit wraparound,
and `PC` ends after the last; nothing else changes. -/
def Obligations.OperandBytesFollowTheOpcode : Prop :=
  ∀ (n : Nat) (s : State),
    (fetchOperands n s).1 = (List.range n).map (fun k => s.MEM.get (s.streamAddr k)) ∧
    (fetchOperands n s).2 = { s with PC := (fetchOperands n s).2.PC } ∧
    (fetchOperands n s).2.PC.toNat = (s.PC.toNat + n) % 65536

/-- R95, for every handler: it keeps the memory canonical and reaches nothing but memory, the register file, `ES` and `STATUS`;
what it appends to `STATUS` is at most one RunFailed, and then the ENGINE is Stopped (R96). -/
def Obligations.HandlersKeepTheContract : Prop :=
  ∀ (e : ExtEntry) (s : State), s.MEM.wf →
    (runEntry e s).MEM.wf ∧ (runEntry e s).LOADED = s.LOADED ∧ (runEntry e s).CANCEL = s.CANCEL ∧
    (runEntry e s).agenda = s.agenda ∧ (runEntry e s).replies = s.replies ∧
    ((runEntry e s).STATUS = s.STATUS ∨
      ((runEntry e s).STATUS = s.STATUS ++ [.runFailed] ∧ (runEntry e s).ES = .stopped)) ∧
    ((runEntry e s).ES = s.ES ∨ (runEntry e s).ES = .stopped)

/-- `raise RunError` ends the run with RunFailed and rolls nothing back (R96). -/
def Obligations.RunErrorEndsTheRunWithoutRollback : Prop :=
  ∀ (s : State) (a v : Int) (r : Reg) (w : Int),
    runHandler (.memWrite a v (.regWrite r w .raiseRunError)) s =
      { { s with MEM := memWrite s.MEM a v }.writeReg r w with
        ES := .stopped, STATUS := s.STATUS ++ [.runFailed] }

/-- With any extension table the loop, HLT, and every HOST operation keep their rules: two parameter sets that differ in `EXT`
and `STATUS_TEXT` only agree on every transition that does not fetch an opcode of 0x01..0xFF (R98). -/
def Obligations.ExtensionLeavesTheLoopAlone : Prop :=
  ∀ (cfg cfg' : Config.Params) (s : State), cfg.resetSP = cfg'.resetSP → cfg.resetP = cfg'.resetP →
    (∀ op, hostStep cfg op s = hostStep cfg' op s) ∧
    (¬ (engineNext s ∧ s.MEM.get s.PC.toNat ≠ 0x00) → stepWith cfg s = stepWith cfg' s) ∧
    (engineNext s → cfg.ext (s.MEM.get s.PC.toNat) = none → cfg'.ext (s.MEM.get s.PC.toNat) = none →
      stepWith cfg s = stepWith cfg' s)
end

