-- ==== Sys2Proof/Laws/Decode.lean ====
section
/-! SUPPORT. The decoder against the encoder and against the opcode table. -/

namespace Sys2Proof

theorem decodeByte_encodeByte {i : Instr} (h : i.wellFormed = true) : decodeByte (encodeByte i) = i := by
  cases i with
  | hlt => rfl
  | skp op =>
    have : op ≠ 0x00 := by simpa [Instr.wellFormed] using h
    exact if_neg this

theorem encodeByte_decodeByte (b : Byte) : encodeByte (decodeByte b) = b := by
  unfold decodeByte Config.haltOpcode
  split
  · next h => exact h.symm
  · rfl

theorem decodeByte_wellFormed (b : Byte) : (decodeByte b).wellFormed = true := by
  unfold decodeByte Config.haltOpcode
  split
  · rfl
  · next h => exact bne_iff_ne.mpr h

theorem decode_cons (b : Byte) (rest : List Byte) : decode (b :: rest) = .ok (decodeByte b, rest) := rfl

end Sys2Proof
end

