-- ==== Sys2Proof/Laws/Memory.lean ====
section
/-! SUPPORT. The laws of the memory: read after write, the canonical form, block copies. -/

namespace Sys2Proof.Machine

/-! ## Masking (R32) -/

theorem maskAddr_lt (a : Int) : maskAddr a < Config.memSize := by
  unfold maskAddr Config.memSize; omega

@[simp] theorem maskAddr_natCast (i : Nat) : maskAddr (i : Int) = i % 65536 := by
  unfold maskAddr Config.memSize; omega

theorem maskAddr_congr {a b : Int} (h : a % 65536 = b % 65536) : maskAddr a = maskAddr b := by
  unfold maskAddr Config.memSize; simp [h]

theorem maskAddr_inj {a b : Int} (h : maskAddr a = maskAddr b) : a % 65536 = b % 65536 := by
  unfold maskAddr Config.memSize at h; omega

theorem maskByte_toNat (v : Int) : ((maskByte v).toNat : Int) = v % 256 := by
  simp [maskByte, BitVec.toNat_ofInt]; omega

@[simp] theorem maskByte_toNat_cast (b : Byte) : maskByte (b.toNat : Int) = b := by
  apply BitVec.eq_of_toNat_eq
  have := maskByte_toNat (b.toNat : Int)
  have := b.isLt
  omega

/-! ## Reading after writing -/

@[simp] theorem Memory.get_nil (i : Nat) : Memory.get [] i = Config.powerOnByte := rfl

theorem Memory.get_absent {m : Memory} {i : Nat} (h : ∀ c ∈ m, i < c.1) :
    m.get i = Config.powerOnByte := by
  induction m with
  | nil => rfl
  | cons c m ih =>
    have h0 := h c (by simp)
    simp only [Memory.get]
    rw [if_neg (by omega)]
    exact ih fun d hd => h d (by simp [hd])

theorem Memory.get_cons {m : Memory} {i : Nat} {v : Byte} (h : ∀ c ∈ m, i < c.1) (j : Nat) :
    (Memory.cons i v m).get j = if j = i then v else m.get j := by
  unfold Memory.cons
  split
  · next hv =>
    split
    · next hj => subst hj; rw [Memory.get_absent h, hv]
    · rfl
  · rfl

/-- Reading after writing (R31, R33). -/
theorem Memory.get_set {m : Memory} (h : m.wf) (i : Nat) (v : Byte) (j : Nat) :
    (m.set i v).get j = if j = i then v else m.get j := by
  induction m with
  | nil => exact Memory.get_cons (by simp) j
  | cons c m ih =>
    obtain ⟨k, w⟩ := c
    have hp := List.pairwise_cons.mp h.1
    have hm : Memory.wf m := ⟨hp.2, fun d hd => h.2 d (by simp [hd])⟩
    simp only [Memory.set]
    split
    · next hik =>
      apply Memory.get_cons
      intro d hd
      rcases List.mem_cons.mp hd with rfl | hd
      · exact hik
      · have := hp.1 d hd; simp only at this; omega
    · split
      · next hik =>
        subst hik
        rw [Memory.get_cons (fun d hd => hp.1 d hd)]
        simp only [Memory.get]
        split <;> rfl
      · next hik =>
        simp only [Memory.get, ih hm]
        split
        · next hj => rw [if_neg (by omega)]
        · rfl

/-! ## The canonical form -/

theorem Memory.wf_nil : Memory.wf [] := by decide

theorem Memory.wf_cons {m : Memory} (h : m.wf) {i : Nat} (hi : i < Config.memSize) (v : Byte)
    (hlt : ∀ c ∈ m, i < c.1) : (Memory.cons i v m).wf := by
  unfold Memory.cons
  split
  · exact h
  · next hv =>
    refine ⟨List.pairwise_cons.mpr ⟨hlt, h.1⟩, ?_⟩
    intro c hc
    rcases List.mem_cons.mp hc with rfl | hc
    · exact ⟨hi, hv⟩
    · exact h.2 c hc

theorem Memory.lt_of_mem_cons {m : Memory} {i : Nat} {v : Byte} {c : Host.Cell}
    (hc : c ∈ Memory.cons i v m) : c.1 = i ∨ c ∈ m := by
  unfold Memory.cons at hc
  split at hc
  · exact .inr hc
  · rcases List.mem_cons.mp hc with rfl | hc
    · exact .inl rfl
    · exact .inr hc

theorem Memory.mem_set {m : Memory} {i : Nat} {v : Byte} {c : Host.Cell} (hc : c ∈ m.set i v) :
    c.1 = i ∨ c ∈ m := by
  induction m with
  | nil => exact Memory.lt_of_mem_cons hc
  | cons d m ih =>
    obtain ⟨k, w⟩ := d
    simp only [Memory.set] at hc
    split at hc
    · exact Memory.lt_of_mem_cons hc
    · split at hc
      · exact (Memory.lt_of_mem_cons hc).imp_right fun h => by simp [h]
      · rcases List.mem_cons.mp hc with rfl | hc
        · exact .inr (by simp)
        · exact (ih hc).imp_right fun h => by simp [h]

/-- A write keeps the canonical form. -/
theorem Memory.wf_set {m : Memory} (h : m.wf) {i : Nat} (hi : i < Config.memSize) (v : Byte) :
    (m.set i v).wf := by
  induction m with
  | nil => exact Memory.wf_cons h hi v (by simp)
  | cons c m ih =>
    obtain ⟨k, w⟩ := c
    have hp := List.pairwise_cons.mp h.1
    have hm : Memory.wf m := ⟨hp.2, fun d hd => h.2 d (by simp [hd])⟩
    simp only [Memory.set]
    split
    · next hik =>
      apply Memory.wf_cons h hi
      intro d hd
      rcases List.mem_cons.mp hd with rfl | hd
      · exact hik
      · have := hp.1 d hd; simp only at this; omega
    · split
      · next hik => subst hik; exact Memory.wf_cons hm hi v fun d hd => hp.1 d hd
      · next hik1 hik2 =>
        have hset := ih hm
        refine ⟨List.pairwise_cons.mpr ⟨?_, hset.1⟩, ?_⟩
        · intro d hd
          rcases Memory.mem_set hd with hd | hd
          · show k < d.1
            omega
          · exact hp.1 d hd
        · intro d hd
          rcases List.mem_cons.mp hd with rfl | hd
          · exact h.2 _ (by simp)
          · exact hset.2 d hd

/-- Canonical memories that read alike are equal data. -/
theorem Memory.eq_of_get_eq {m n : Memory} (hm : m.wf) (hn : n.wf) (h : ∀ i, m.get i = n.get i) :
    m = n := by
  induction m generalizing n with
  | nil =>
    cases n with
    | nil => rfl
    | cons d n =>
      have := h d.1
      simp [Memory.get] at this
      exact absurd this.symm (hn.2 d (by simp)).2
  | cons c m ih =>
    obtain ⟨k, v⟩ := c
    have hpm := List.pairwise_cons.mp hm.1
    have hv : v ≠ Config.powerOnByte := (hm.2 (k, v) (by simp)).2
    cases n with
    | nil =>
      have := h k
      simp [Memory.get] at this
      exact absurd this hv
    | cons d n =>
      obtain ⟨l, w⟩ := d
      have hpn := List.pairwise_cons.mp hn.1
      have hw : w ≠ Config.powerOnByte := (hn.2 (l, w) (by simp)).2
      have hkl : k = l := by
        rcases Nat.lt_trichotomy k l with hlt | heq | hgt
        · have := h k
          simp only [Memory.get, if_true] at this
          rw [if_neg (by omega), Memory.get_absent] at this
          · exact absurd this hv
          · intro e he; have := hpn.1 e he; simp only at this; omega
        · exact heq
        · have := h l
          simp only [Memory.get, if_true] at this
          rw [if_neg (by omega), Memory.get_absent] at this
          · exact absurd this.symm hw
          · intro e he; have := hpm.1 e he; simp only at this; omega
      subst hkl
      have hvw : v = w := by have := h k; simpa [Memory.get] using this
      subst hvw
      congr 1
      apply ih ⟨hpm.2, fun e he => hm.2 e (by simp [he])⟩ ⟨hpn.2, fun e he => hn.2 e (by simp [he])⟩
      intro i
      by_cases hik : i = k
      · subst hik
        rw [Memory.get_absent (fun e he => hpm.1 e he), Memory.get_absent (fun e he => hpn.1 e he)]
      · have := h i
        simpa [Memory.get, hik] using this

/-! ## The primitives -/

theorem memWrite_wf {m : Memory} (h : m.wf) (a v : Int) : (memWrite m a v).wf :=
  Memory.wf_set h (maskAddr_lt a) _

theorem get_memWrite {m : Memory} (h : m.wf) (a v : Int) (j : Nat) :
    (memWrite m a v).get j = if j = maskAddr a then maskByte v else m.get j :=
  Memory.get_set h _ _ j

theorem writeBlock_wf {m : Memory} (h : m.wf) (base : Int) (bytes : List Byte) :
    (writeBlock m base bytes).wf := by
  induction bytes generalizing base with
  | nil => exact h
  | cons b rest ih => exact memWrite_wf (ih (base + 1)) base _

/-- A block copy that does not wrap writes exactly its bytes (R47, R72). -/
theorem get_writeBlock {m : Memory} (h : m.wf) (base : Nat) (bytes : List Byte)
    (hb : base + bytes.length ≤ Config.memSize) (j : Nat) :
    (writeBlock m base bytes).get j =
      if base ≤ j ∧ j < base + bytes.length then bytes.getD (j - base) 0 else m.get j := by
  induction bytes generalizing base with
  | nil => rw [if_neg (by simp)]; rfl
  | cons b rest ih =>
    simp only [List.length_cons] at hb ⊢
    simp only [writeBlock]
    rw [get_memWrite (writeBlock_wf h _ _), maskByte_toNat_cast]
    have hm : maskAddr (base : Int) = base := by
      rw [maskAddr_natCast]; simp only [Config.memSize] at hb; omega
    rw [hm]
    have hc : ((base : Int) + 1) = ((base + 1 : Nat) : Int) := by omega
    rw [hc, ih (base + 1) (by omega)]
    by_cases hj : j = base
    · subst hj; simp
    · rw [if_neg hj]
      by_cases hr : base + 1 ≤ j ∧ j < base + 1 + rest.length
      · rw [if_pos hr, if_pos (by omega)]
        obtain ⟨d, rfl⟩ : ∃ d, j = base + 1 + d := ⟨j - (base + 1), by omega⟩
        have e1 : base + 1 + d - (base + 1) = d := by omega
        have e2 : base + 1 + d - base = d + 1 := by omega
        rw [e1, e2, List.getD_cons_succ]
      · rw [if_neg hr, if_neg (by omega)]

end Sys2Proof.Machine
end

