-- ==== Sys2Proof/Laws/State.lean ====
section
/-! SUPPORT. One lemma per field per shared update of the state. -/

namespace Sys2Proof.Machine

variable (s : State)

@[simp] theorem emit_MEM (e : StatusEvent) : (s.emit e).MEM = s.MEM := rfl
@[simp] theorem emit_A (e : StatusEvent) : (s.emit e).A = s.A := rfl
@[simp] theorem emit_X (e : StatusEvent) : (s.emit e).X = s.X := rfl
@[simp] theorem emit_Y (e : StatusEvent) : (s.emit e).Y = s.Y := rfl
@[simp] theorem emit_P (e : StatusEvent) : (s.emit e).P = s.P := rfl
@[simp] theorem emit_SP (e : StatusEvent) : (s.emit e).SP = s.SP := rfl
@[simp] theorem emit_PC (e : StatusEvent) : (s.emit e).PC = s.PC := rfl
@[simp] theorem emit_ES (e : StatusEvent) : (s.emit e).ES = s.ES := rfl
@[simp] theorem emit_LOADED (e : StatusEvent) : (s.emit e).LOADED = s.LOADED := rfl
@[simp] theorem emit_CANCEL (e : StatusEvent) : (s.emit e).CANCEL = s.CANCEL := rfl
@[simp] theorem emit_STATUS (e : StatusEvent) : (s.emit e).STATUS = s.STATUS ++ [e] := rfl
@[simp] theorem emit_agenda (e : StatusEvent) : (s.emit e).agenda = s.agenda := rfl
@[simp] theorem emit_replies (e : StatusEvent) : (s.emit e).replies = s.replies := rfl

@[simp] theorem reply_MEM (r : Reply) : (s.reply r).MEM = s.MEM := rfl
@[simp] theorem reply_A (r : Reply) : (s.reply r).A = s.A := rfl
@[simp] theorem reply_X (r : Reply) : (s.reply r).X = s.X := rfl
@[simp] theorem reply_Y (r : Reply) : (s.reply r).Y = s.Y := rfl
@[simp] theorem reply_P (r : Reply) : (s.reply r).P = s.P := rfl
@[simp] theorem reply_SP (r : Reply) : (s.reply r).SP = s.SP := rfl
@[simp] theorem reply_PC (r : Reply) : (s.reply r).PC = s.PC := rfl
@[simp] theorem reply_ES (r : Reply) : (s.reply r).ES = s.ES := rfl
@[simp] theorem reply_LOADED (r : Reply) : (s.reply r).LOADED = s.LOADED := rfl
@[simp] theorem reply_CANCEL (r : Reply) : (s.reply r).CANCEL = s.CANCEL := rfl
@[simp] theorem reply_STATUS (r : Reply) : (s.reply r).STATUS = s.STATUS := rfl
@[simp] theorem reply_agenda (r : Reply) : (s.reply r).agenda = s.agenda := rfl
@[simp] theorem reply_replies (r : Reply) : (s.reply r).replies = s.replies ++ [r] := rfl

@[simp] theorem resumeRun_MEM : (resumeRun s).MEM = s.MEM := rfl
@[simp] theorem resumeRun_A : (resumeRun s).A = s.A := rfl
@[simp] theorem resumeRun_X : (resumeRun s).X = s.X := rfl
@[simp] theorem resumeRun_Y : (resumeRun s).Y = s.Y := rfl
@[simp] theorem resumeRun_P : (resumeRun s).P = s.P := rfl
@[simp] theorem resumeRun_SP : (resumeRun s).SP = s.SP := rfl
@[simp] theorem resumeRun_PC : (resumeRun s).PC = s.PC := rfl
@[simp] theorem resumeRun_ES : (resumeRun s).ES = .running := rfl
@[simp] theorem resumeRun_LOADED : (resumeRun s).LOADED = s.LOADED := rfl
@[simp] theorem resumeRun_CANCEL : (resumeRun s).CANCEL = false := rfl
@[simp] theorem resumeRun_STATUS : (resumeRun s).STATUS = s.STATUS := rfl
@[simp] theorem resumeRun_agenda : (resumeRun s).agenda = s.agenda := rfl
@[simp] theorem resumeRun_replies : (resumeRun s).replies = s.replies := rfl

@[simp] theorem endRun_MEM (e : Option StatusEvent) : (endRun e s).MEM = s.MEM := by cases e <;> rfl
@[simp] theorem endRun_A (e : Option StatusEvent) : (endRun e s).A = s.A := by cases e <;> rfl
@[simp] theorem endRun_X (e : Option StatusEvent) : (endRun e s).X = s.X := by cases e <;> rfl
@[simp] theorem endRun_Y (e : Option StatusEvent) : (endRun e s).Y = s.Y := by cases e <;> rfl
@[simp] theorem endRun_P (e : Option StatusEvent) : (endRun e s).P = s.P := by cases e <;> rfl
@[simp] theorem endRun_SP (e : Option StatusEvent) : (endRun e s).SP = s.SP := by cases e <;> rfl
@[simp] theorem endRun_PC (e : Option StatusEvent) : (endRun e s).PC = s.PC := by cases e <;> rfl
@[simp] theorem endRun_ES (e : Option StatusEvent) : (endRun e s).ES = .stopped := by cases e <;> rfl
@[simp] theorem endRun_LOADED (e : Option StatusEvent) : (endRun e s).LOADED = s.LOADED := by cases e <;> rfl
@[simp] theorem endRun_CANCEL (e : Option StatusEvent) : (endRun e s).CANCEL = s.CANCEL := by cases e <;> rfl
@[simp] theorem endRun_STATUS (e : Option StatusEvent) : (endRun e s).STATUS = s.STATUS ++ e.toList := by cases e <;> simp [endRun]
@[simp] theorem endRun_agenda (e : Option StatusEvent) : (endRun e s).agenda = s.agenda := by cases e <;> rfl
@[simp] theorem endRun_replies (e : Option StatusEvent) : (endRun e s).replies = s.replies := by cases e <;> rfl

@[simp] theorem writeReg_MEM (r : Reg) (v : Int) : (s.writeReg r v).MEM = s.MEM := by cases r <;> rfl
@[simp] theorem writeReg_A (r : Reg) (v : Int) : (s.writeReg r v).A = if r = .A then BitVec.ofInt 8 v else s.A := by cases r <;> rfl
@[simp] theorem writeReg_X (r : Reg) (v : Int) : (s.writeReg r v).X = if r = .X then BitVec.ofInt 8 v else s.X := by cases r <;> rfl
@[simp] theorem writeReg_Y (r : Reg) (v : Int) : (s.writeReg r v).Y = if r = .Y then BitVec.ofInt 8 v else s.Y := by cases r <;> rfl
@[simp] theorem writeReg_P (r : Reg) (v : Int) : (s.writeReg r v).P = if r = .P then BitVec.ofInt 8 v else s.P := by cases r <;> rfl
@[simp] theorem writeReg_SP (r : Reg) (v : Int) : (s.writeReg r v).SP = if r = .SP then BitVec.ofInt 8 v else s.SP := by cases r <;> rfl
@[simp] theorem writeReg_PC (r : Reg) (v : Int) : (s.writeReg r v).PC = if r = .PC then BitVec.ofInt 16 v else s.PC := by cases r <;> rfl
@[simp] theorem writeReg_ES (r : Reg) (v : Int) : (s.writeReg r v).ES = s.ES := by cases r <;> rfl
@[simp] theorem writeReg_LOADED (r : Reg) (v : Int) : (s.writeReg r v).LOADED = s.LOADED := by cases r <;> rfl
@[simp] theorem writeReg_CANCEL (r : Reg) (v : Int) : (s.writeReg r v).CANCEL = s.CANCEL := by cases r <;> rfl
@[simp] theorem writeReg_STATUS (r : Reg) (v : Int) : (s.writeReg r v).STATUS = s.STATUS := by cases r <;> rfl
@[simp] theorem writeReg_agenda (r : Reg) (v : Int) : (s.writeReg r v).agenda = s.agenda := by cases r <;> rfl
@[simp] theorem writeReg_replies (r : Reg) (v : Int) : (s.writeReg r v).replies = s.replies := by cases r <;> rfl

@[simp] theorem placeInstruction_MEM (b : Byte) : (placeInstruction s b).MEM = memWrite s.MEM s.PC.toNat b.toNat := rfl
@[simp] theorem placeInstruction_A (b : Byte) : (placeInstruction s b).A = s.A := rfl
@[simp] theorem placeInstruction_X (b : Byte) : (placeInstruction s b).X = s.X := rfl
@[simp] theorem placeInstruction_Y (b : Byte) : (placeInstruction s b).Y = s.Y := rfl
@[simp] theorem placeInstruction_P (b : Byte) : (placeInstruction s b).P = s.P := rfl
@[simp] theorem placeInstruction_SP (b : Byte) : (placeInstruction s b).SP = s.SP := rfl
@[simp] theorem placeInstruction_PC (b : Byte) : (placeInstruction s b).PC = s.PC := rfl
@[simp] theorem placeInstruction_ES (b : Byte) : (placeInstruction s b).ES = .running := rfl
@[simp] theorem placeInstruction_LOADED (b : Byte) : (placeInstruction s b).LOADED = true := rfl
@[simp] theorem placeInstruction_CANCEL (b : Byte) : (placeInstruction s b).CANCEL = false := rfl
@[simp] theorem placeInstruction_STATUS (b : Byte) : (placeInstruction s b).STATUS = s.STATUS := rfl
@[simp] theorem placeInstruction_agenda (b : Byte) : (placeInstruction s b).agenda = .engine :: s.agenda := rfl
@[simp] theorem placeInstruction_replies (b : Byte) : (placeInstruction s b).replies = s.replies := rfl

@[simp] theorem takeTurn_MEM : (s.takeTurn).MEM = s.MEM := rfl
@[simp] theorem takeTurn_A : (s.takeTurn).A = s.A := rfl
@[simp] theorem takeTurn_X : (s.takeTurn).X = s.X := rfl
@[simp] theorem takeTurn_Y : (s.takeTurn).Y = s.Y := rfl
@[simp] theorem takeTurn_P : (s.takeTurn).P = s.P := rfl
@[simp] theorem takeTurn_SP : (s.takeTurn).SP = s.SP := rfl
@[simp] theorem takeTurn_PC : (s.takeTurn).PC = s.PC := rfl
@[simp] theorem takeTurn_ES : (s.takeTurn).ES = s.ES := rfl
@[simp] theorem takeTurn_LOADED : (s.takeTurn).LOADED = s.LOADED := rfl
@[simp] theorem takeTurn_CANCEL : (s.takeTurn).CANCEL = s.CANCEL := rfl
@[simp] theorem takeTurn_STATUS : (s.takeTurn).STATUS = s.STATUS := rfl
@[simp] theorem takeTurn_agenda : (s.takeTurn).agenda = s.agenda.tail := rfl
@[simp] theorem takeTurn_replies : (s.takeTurn).replies = s.replies := rfl

end Sys2Proof.Machine
end

