-- ==== Sys2Proof/Laws/Ops.lean ====
section
/-! SUPPORT. What each shared operation does, said once: Fetch(), Reset(), operand fetches, handlers. -/

namespace Sys2Proof.Machine

@[simp] theorem ofInt8_toNat (b : Byte) : BitVec.ofInt 8 (b.toNat : Int) = b := maskByte_toNat_cast b

/-- Fetch(), as a record update (R85). -/
theorem fetch_eq (s : State) :
    fetch s = (s.MEM.get s.PC.toNat, { s with PC := s.PC + 1 }) := by
  have hb := s.PC.isLt
  have hpc : BitVec.ofInt 16 ((s.PC.toNat : Int) + 1) = s.PC + 1 := by
    apply BitVec.eq_of_toNat_eq
    rw [BitVec.toNat_ofInt, BitVec.toNat_add]
    simp
    omega
  have ha : maskAddr (s.PC.toNat : Int) = s.PC.toNat := by rw [maskAddr_natCast]; omega
  simp only [fetch, memRead, State.readReg, State.writeReg, hpc, ha]

theorem resetVector_lt (m : Memory) : resetVector m < 65536 := by
  have hl := (memRead m Config.vectorLow).isLt
  have hh := (memRead m Config.vectorHigh).isLt
  unfold resetVector
  have : (memRead m Config.vectorHigh).toNat <<< 8 < 2 ^ 16 := by
    rw [Nat.shiftLeft_eq]; omega
  exact Nat.or_lt_two_pow this (by omega)

/-- The two bytes do not overlap: "giving a value in 0..65535 with no carry between the bytes" (R100). -/
theorem resetVector_eq (m : Memory) :
    resetVector m = (m.get 0xFFFD).toNat * 256 + (m.get 0xFFFC).toNat := by
  have hl := (m.get 0xFFFC).isLt
  have e : ∀ i : Nat, i < 65536 → memRead m (i : Int) = m.get i := by
    intro i hi; unfold memRead; rw [maskAddr_natCast, Nat.mod_eq_of_lt hi]
  unfold resetVector
  rw [e _ (by decide), e _ (by decide)]
  simp only [Config.vectorLow, Config.vectorHigh]
  rw [← Nat.shiftLeft_add_eq_or_of_lt hl, Nat.shiftLeft_eq]

/-- Reset(), as a record update (R23, R142). -/
theorem doReset_eq (cfg : Config.Params) (s : State) :
    doReset cfg s =
      { s with
        A := 0x00, X := 0x00, Y := 0x00, SP := cfg.resetSP, P := cfg.resetP
        PC := BitVec.ofNat 16 (resetVector s.MEM)
        STATUS := s.STATUS ++ [.resetDone (BitVec.ofNat 16 (resetVector s.MEM)) cfg.resetSP] } := by
  simp only [doReset, State.writeReg, State.emit, ofInt8_toNat]
  rfl

/-- `n` operand fetches advance `PC` by `n` and change nothing else (R94). -/
theorem fetchOperands_state (n : Nat) (s : State) :
    (fetchOperands n s).2 = { s with PC := s.PC + BitVec.ofNat 16 n } := by
  induction n generalizing s with
  | zero => simp [fetchOperands]
  | succ n ih =>
    simp only [fetchOperands, fetch_eq, ih]
    congr 1
    rw [BitVec.add_assoc]
    congr 1
    apply BitVec.eq_of_toNat_eq
    simp [BitVec.toNat_add]
    omega

/-- A handler keeps whatever every action of the contract keeps (R95, R96): the induction over handlers, once. -/
theorem runHandler_keeps (Q : State → Prop)
    (hrun : ∀ s, Q s → Q (endRun none s)) (hfail : ∀ s, Q s → Q (endRun (some .runFailed) s))
    (hmem : ∀ s a v, Q s → Q { s with MEM := memWrite s.MEM a v })
    (hreg : ∀ s r v, Q s → Q (s.writeReg r v)) (h : Handler) (s : State) (hs : Q s) :
    Q (runHandler h s) := by
  induction h generalizing s with
  | done => exact hs
  | raiseRunError => exact hfail s hs
  | stopEngine _ ih => exact ih _ (hrun s hs)
  | memRead _ _ ih => exact ih _ _ hs
  | memWrite a v _ ih => exact ih _ (hmem s a v hs)
  | regRead _ _ ih => exact ih _ _ hs
  | regWrite r v _ ih => exact ih _ (hreg s r v hs)

theorem runHandler_wf (h : Handler) {s : State} (hs : s.MEM.wf) : (runHandler h s).MEM.wf := by
  refine runHandler_keeps (fun s => s.MEM.wf) ?_ ?_ ?_ ?_ h s hs
  · intro s h; simpa using h
  · intro s h; simpa using h
  · intro s a v h; exact memWrite_wf h a v
  · intro s r v h; simpa using h

theorem runEntry_wf (e : ExtEntry) {s : State} (hs : s.MEM.wf) : (runEntry e s).MEM.wf := by
  simp only [runEntry]
  apply runHandler_wf
  rw [fetchOperands_state]
  exact hs

end Sys2Proof.Machine
end

