-- ==== Sys2Proof/Laws/Mapper.lean ====
section
/-! SUPPORT. LOAD: what it can answer (R68), and what the mapped memory holds (R72). -/

namespace Sys2Proof.Machine

/-- Everything a LOAD can answer. -/
theorem hostLoad_cases (cfg : Config.Params) (image : Option (List Byte)) (s : State) :
    (s.ES = .running ∧ hostLoad cfg image s = .refused .loadWhileRunning) ∨
    (s.ES = .stopped ∧ image = none ∧ hostLoad cfg image s = .next (loadFail .ioError s)) ∨
    (∃ bytes kind, s.ES = .stopped ∧ image = some bytes ∧ loadError bytes = some kind ∧
      hostLoad cfg image s = .next (loadFail kind s)) ∨
    (∃ bytes, s.ES = .stopped ∧ image = some bytes ∧ loadError bytes = none ∧ bankCount bytes = 0 ∧
      hostLoad cfg image s = .refused .loadBankCountZero) ∨
    (∃ bytes, s.ES = .stopped ∧ image = some bytes ∧ loadError bytes = none ∧ bankCount bytes ≠ 0 ∧
      hostLoad cfg image s = .next (loadMapped cfg bytes s)) := by
  cases hES : s.ES with
  | running => exact .inl ⟨rfl, by simp [hostLoad, hES]⟩
  | stopped =>
    refine .inr ?_
    cases image with
    | none => exact .inl ⟨rfl, rfl, by simp [hostLoad, hES]⟩
    | some bytes =>
      refine .inr ?_
      cases herr : loadError bytes with
      | some kind => exact .inl ⟨bytes, kind, rfl, rfl, herr, by simp [hostLoad, hES, herr]⟩
      | none =>
        refine .inr ?_
        by_cases hN : bankCount bytes = 0
        · exact .inl ⟨bytes, rfl, rfl, herr, hN, by simp [hostLoad, hES, herr, hN]⟩
        · exact .inr ⟨bytes, rfl, rfl, herr, hN, by simp [hostLoad, hES, herr, hN]⟩

/-- The image passes the checks exactly when the format is right and the length suffices (R69, R70). -/
theorem loadError_none (image : List Byte) :
    loadError image = none ↔ formatOk image = true ∧ requiredLength image ≤ image.length := by
  unfold loadError
  cases formatOk image <;> simp

theorem formatOk_iff (image : List Byte) : formatOk image = true ↔ passesFormat image := by
  unfold formatOk
  rw [Bool.and_eq_true, decide_eq_true_iff, beq_iff_eq]
  exact Iff.rfl

theorem bankCount_eq (image : List Byte) : bankCount image = declaredBanks image := rfl

theorem requiredLength_eq (image : List Byte) :
    requiredLength image = 16 + declaredBanks image * 16384 := rfl

/-- The checks as R69 and R70 word them. -/
theorem loadError_eq (image : List Byte) :
    loadError image =
      if ¬ passesFormat image then some .formatError
      else if ¬ passesLength image then some .truncatedError
      else none := by
  unfold loadError
  rw [requiredLength_eq]
  by_cases hf : passesFormat image
  · rw [(formatOk_iff image).2 hf, if_neg (not_not.2 hf)]
    simp [passesLength]
  · have : formatOk image = false := by
      cases h : formatOk image
      · rfl
      · exact absurd ((formatOk_iff image).1 h) hf
    rw [this, if_pos hf]; rfl

/-- A loadable image, LOADed while Stopped, is mapped (R68). -/
theorem hostLoad_loadable {cfg : Config.Params} {image : List Byte} {s : State} (hES : s.ES = .stopped)
    (h : loadable image) : hostLoad cfg (some image) s = .next (loadMapped cfg image s) := by
  obtain ⟨hf, hl, hN⟩ := h
  have he : loadError image = none := by rw [loadError_eq, if_neg (not_not.2 hf), if_neg (not_not.2 hl)]
  simp [hostLoad, hES, he, bankCount_eq, hN]

theorem bank_length {image : List Byte} {k : Nat} (hk : 1 ≤ k) (hN : k ≤ bankCount image)
    (h : requiredLength image ≤ image.length) : (bank image k).length = Config.bankSize := by
  simp only [bank, requiredLength, Config.headerSize, Config.bankSize, List.length_take,
    List.length_drop] at *
  omega

theorem bank_getD {image : List Byte} (k i : Nat) (hi : i < Config.bankSize) :
    (bank image k).getD i 0 = imageByte image (Config.headerSize + Config.bankSize * (k - 1) + i) := by
  simp only [bank, imageByte, List.getD_eq_getElem?_getD, List.getElem?_take, List.getElem?_drop, if_pos hi]

theorem window1Bank_length {image : List Byte} (hN : bankCount image ≠ 0)
    (h : requiredLength image ≤ image.length) : (window1Bank image).length = Config.bankSize := by
  unfold window1Bank
  split
  · exact bank_length (by omega) (by omega) h
  · exact bank_length (by omega) (by omega) h

/-- What every byte of `MEM` is after the two copies (R72). -/
theorem get_mapBanks {m : Memory} (hm : m.wf) {image : List Byte} (hN : bankCount image ≠ 0)
    (h : requiredLength image ≤ image.length) (j : Nat) :
    (mapBanks m image).get j =
      if 0xC000 ≤ j ∧ j < 0x10000 then (window1Bank image).getD (j - 0xC000) 0
      else if 0x8000 ≤ j ∧ j < 0xC000 then (bank image 1).getD (j - 0x8000) 0
      else m.get j := by
  have h1 := bank_length (k := 1) (by omega) (by omega) h
  have h2 := window1Bank_length hN h
  unfold mapBanks
  rw [get_writeBlock (writeBlock_wf hm _ _) _ _ (by rw [h2]; decide), h2,
    get_writeBlock hm _ _ (by rw [h1]; decide), h1]
  rfl

theorem mapBanks_wf {m : Memory} (hm : m.wf) (image : List Byte) : (mapBanks m image).wf :=
  writeBlock_wf (writeBlock_wf hm _ _) _ _

/-- A successful LOAD, as a record update (R68, R74). -/
theorem loadMapped_eq (cfg : Config.Params) (image : List Byte) (s : State) :
    loadMapped cfg image s =
      { s with
        MEM := mapBanks s.MEM image
        A := 0x00, X := 0x00, Y := 0x00, SP := cfg.resetSP, P := cfg.resetP
        PC := BitVec.ofNat 16 (resetVector (mapBanks s.MEM image))
        LOADED := true
        STATUS := s.STATUS ++
          [.resetDone (BitVec.ofNat 16 (resetVector (mapBanks s.MEM image))) cfg.resetSP]
        replies := s.replies ++ [.loaded .success] } := by
  simp only [loadMapped, doReset_eq, State.reply]

end Sys2Proof.Machine
end

