-- ==== Sys2Proof/Laws/Lifecycle.lean ====
section
/-! SUPPORT. What a HOST operation can do, said once (R117). -/

namespace Sys2Proof.Machine

/-- A LOAD that answers a next state failed with one of its three error kinds, or mapped a loadable image; it
was issued while Stopped (R68, R80). -/
theorem hostLoad_next {cfg : Config.Params} {image : Option (List Byte)} {s t : State}
    (h : hostLoad cfg image s = .next t) :
    s.ES = .stopped ∧
      ((∃ kind, kind ≠ .runError ∧ t = loadFail kind s) ∨
        ∃ bytes, image = some bytes ∧ loadable bytes ∧ t = loadMapped cfg bytes s) := by
  rcases hostLoad_cases cfg image s with ⟨_, e⟩ | ⟨hES, _, e⟩ | ⟨bytes, kind, hES, _, he, e⟩ |
    ⟨_, _, _, _, _, e⟩ | ⟨bytes, hES, hi, he, hN, e⟩ <;> rw [e] at h <;> cases h
  · exact ⟨hES, .inl ⟨_, by simp, rfl⟩⟩
  · refine ⟨hES, .inl ⟨_, ?_, rfl⟩⟩
    rw [loadError_eq] at he
    split at he
    · cases he; simp
    · split at he <;> cases he; simp
  · refine ⟨hES, .inr ⟨bytes, hi, ?_, rfl⟩⟩
    rw [loadError_eq] at he
    by_cases hf : passesFormat bytes
    · by_cases hl : passesLength bytes
      · exact ⟨hf, hl, hN⟩
      · rw [if_neg (not_not.2 hf), if_pos hl] at he; cases he
    · rw [if_pos hf] at he; cases he

theorem hostStart_cases (s : State) :
    (s.ES = .running ∧ hostStart s = (s.emit (.startIgnored .alreadyRunning)).reply .startReturned) ∨
    (s.ES = .stopped ∧ s.LOADED = false ∧
      hostStart s = (s.emit (.startIgnored .noCartridge)).reply .startReturned) ∨
    (s.ES = .stopped ∧ s.LOADED = true ∧ hostStart s = (resumeRun s).reply .startReturned) := by
  cases hES : s.ES <;> cases hL : s.LOADED <;> simp [hostStart, hES, hL]

theorem hostStop_cases (s : State) :
    (s.ES = .stopped ∧ hostStop s = (s.emit .stopIgnored).reply .stopReturned) ∨
    (s.ES = .running ∧ hostStop s = { s with CANCEL := true }) := by
  cases hES : s.ES <;> simp [hostStop, hES]

/-- Everything a HOST operation that answers a next state can be (R117). -/
theorem hostStep_next {cfg : Config.Params} {op : HostOp} {s t : State}
    (h : hostStep cfg op s = .next t) :
    (s.ES = .stopped ∧ ∃ kind image, op = .load image ∧ kind ≠ .runError ∧ t = loadFail kind s) ∨
    (s.ES = .stopped ∧ ∃ bytes, op = .load (some bytes) ∧ loadable bytes ∧ t = loadMapped cfg bytes s) ∨
    (op = .start ∧ t = hostStart s) ∨ (op = .stop ∧ t = hostStop s) ∨
    (s.ES = .stopped ∧ op = .reset ∧ t = (doReset cfg s).reply .resetReturned) ∨
    (∃ a, op = .peek a ∧ t = hostPeek a s) ∨
    (∃ a v, s.ES = .stopped ∧ op = .poke a v ∧
      t = { s with MEM := memWrite s.MEM a v }.reply .pokeReturned) ∨
    (op = .inspect ∧ t = hostInspect s) := by
  cases op with
  | load image =>
    obtain ⟨hES, ⟨kind, hk, rfl⟩ | ⟨bytes, rfl, hl, rfl⟩⟩ := hostLoad_next h
    · exact .inl ⟨hES, kind, image, rfl, hk, rfl⟩
    · exact .inr (.inl ⟨hES, bytes, rfl, hl, rfl⟩)
  | start => cases h; simp
  | stop => cases h; simp
  | reset =>
    cases hES : s.ES with
    | stopped =>
      simp only [hostStep, hostReset, hES] at h
      rw [if_neg (by simp)] at h; cases h; simp
    | running => simp [hostStep, hostReset, hES] at h
  | peek a => cases h; simp
  | poke a v =>
    cases hES : s.ES with
    | stopped =>
      simp only [hostStep, hostPoke, hES] at h
      rw [if_neg (by simp)] at h; cases h; simp
    | running => simp [hostStep, hostPoke, hES] at h
  | inspect => cases h; simp

end Sys2Proof.Machine
end

