-- ==== Sys2Proof/Laws/PerInstr.lean ====
section
/-! SUPPORT. Statements made per instruction. -/

namespace Sys2Proof.Laws.RoundTrip

/-- A well-formed instruction's bytes decode to it, and what follows them is left over (R50). -/
def Statement (i : Instr) : Prop :=
  i.wellFormed = true → ∀ rest, decode (encode i ++ rest) = .ok (i, rest)

theorem hlt : Statement .hlt := fun _ _ => rfl

theorem skp (op : Byte) : Statement (.skp op) := fun h rest => by
  show decode (encodeByte (.skp op) :: rest) = _
  rw [decode_cons, decodeByte_encodeByte h]

end Sys2Proof.Laws.RoundTrip
end

