-- ==== Sys2Proof/Laws/Step.lean ====
section
/-! SUPPORT. What a transition can be, said once: the cases of the ENGINE step, whose turn it is, and every
next state a step can answer; runs. -/

namespace Sys2Proof.Machine

@[simp] theorem extEntry_hardware (op : Byte) : extEntry Config.hardware op = none := by
  unfold extEntry Config.hardware; split <;> rfl

theorem exec_hlt (s : State) : exec .hlt s = .next (endRun (some (.halted s.PC)) s) := rfl

theorem exec_skp (op : Byte) (s : State) : exec (.skp op) s = .next s := rfl

theorem decodeByte_zero : decodeByte 0x00 = .hlt := rfl

theorem decodeByte_ne_zero {b : Byte} (h : b ≠ 0x00) : decodeByte b = .skp b := by
  unfold decodeByte Config.haltOpcode; rw [if_neg h]

/-! ## The ENGINE step (R87) -/

/-- The ENGINE step of this hardware, not cancelled, runs the instruction its opcode byte decodes to. -/
theorem engineStep_fetches {s : State} (hc : s.CANCEL = false) :
    engineStep Config.hardware s =
      exec (decodeByte (s.MEM.get s.PC.toNat)) { s with PC := s.PC + 1 } := by
  simp only [engineStep, hc, fetch_eq, dispatch, extEntry_hardware]; rfl

/-- The three things an ENGINE step of this hardware can do (R87, R90, R91). -/
theorem engineStep_cases (s : State) :
    (s.CANCEL = true ∧
      engineStep Config.hardware s = .next ((endRun none s).reply .stopReturned)) ∨
    (s.CANCEL = false ∧ s.MEM.get s.PC.toNat = 0x00 ∧
      engineStep Config.hardware s =
        .next (endRun (some (.halted (s.PC + 1))) { s with PC := s.PC + 1 })) ∨
    (s.CANCEL = false ∧ s.MEM.get s.PC.toNat ≠ 0x00 ∧
      engineStep Config.hardware s = .next { s with PC := s.PC + 1 }) := by
  rcases Bool.eq_false_or_eq_true s.CANCEL with hc | hc
  · exact .inl ⟨hc, by simp [engineStep, hc]⟩
  · refine .inr ?_
    by_cases hb : s.MEM.get s.PC.toNat = 0x00
    · exact .inl ⟨hc, hb, by rw [engineStep_fetches hc, hb]; rfl⟩
    · exact .inr ⟨hc, hb, by rw [engineStep_fetches hc, decodeByte_ne_zero hb]; rfl⟩

/-! ## Whose turn it is (R6) -/

theorem stopPending_iff (s : State) : stopPending s = true ↔ s.ES = .running ∧ s.CANCEL = true := by
  simp [stopPending]

theorem takeTurn_of_nil {s : State} (h : s.agenda = []) : s.takeTurn = s := by
  cases s; simp_all [State.takeTurn]

/-- Where the HOST has the turn, the transition is its operation (R6). -/
theorem step_hostNext {s : State} {op : HostOp} (h : hostNext s op) :
    step s = hostStep Config.hardware op s.takeTurn := by
  obtain ⟨hp, ha⟩ := h
  rcases hag : s.agenda with _ | ⟨t, rest⟩
  · simp [hag] at ha
  · simp only [hag, List.head?_cons, Option.some.injEq] at ha
    subst ha
    simp [step, stepWith, hp, hag]

/-- Where the ENGINE has the turn, the transition is its step (R87). -/
theorem step_engineNext {s : State} (h : engineNext s) :
    step s = engineStep Config.hardware s.takeTurn := by
  obtain ⟨hES, hc, ha⟩ := h
  have hp : stopPending s = false := by simp [stopPending, hc]
  rcases hag : s.agenda with _ | ⟨_ | op, rest⟩
  · rw [takeTurn_of_nil hag]; simp [step, stepWith, hp, hag, engineTurn, hES]
  · simp [step, stepWith, hp, hag, engineTurn, hES]
  · simp [hag] at ha

/-- While the HOST waits in a STOP, the transition is the ENGINE step that ends the run (R108). -/
theorem step_stopPending {s : State} (hES : s.ES = .running) (hc : s.CANCEL = true) :
    step s = .next ((endRun none s).reply .stopReturned) := by
  have hp : stopPending s = true := (stopPending_iff s).2 ⟨hES, hc⟩
  simp [step, stepWith, hp, engineStep, hc]

/-- An ENGINE turn while Stopped passes without effect (R87). -/
theorem step_idle {s : State} (hES : s.ES = .stopped) (ha : s.agenda.head?.getD .engine = .engine) :
    step s = .next s.takeTurn := by
  have hp : stopPending s = false := by simp [stopPending, hES]
  rcases hag : s.agenda with _ | ⟨_ | op, rest⟩
  · rw [takeTurn_of_nil hag]; simp [step, stepWith, hp, hag, engineTurn, hES]
  · simp [step, stepWith, hp, hag, engineTurn, hES]
  · simp [hag] at ha

/-- The four kinds of transition, by what gives the turn. -/
theorem turn_cases (s : State) :
    (s.ES = .running ∧ s.CANCEL = true) ∨ (∃ op, hostNext s op) ∨ engineNext s ∨
    (s.ES = .stopped ∧ s.agenda.head?.getD .engine = .engine) := by
  cases hp : stopPending s with
  | true => exact .inl ((stopPending_iff s).1 hp)
  | false =>
    refine .inr ?_
    by_cases ha : s.agenda.head?.getD .engine = .engine
    · refine .inr ?_
      cases hES : s.ES with
      | stopped => exact .inr ⟨rfl, ha⟩
      | running => exact .inl ⟨hES, by simpa [stopPending, hES] using hp, ha⟩
    · rcases hag : s.agenda with _ | ⟨_ | op, rest⟩
      · simp [hag] at ha
      · simp [hag] at ha
      · exact .inl ⟨op, hp, by simp [hag]⟩

/-- Every next state a step can answer: the end of a cancelled run, HLT, SKP, an idle turn, or what a HOST
operation makes of the state. -/
theorem step_next {s t : State} (h : step s = .next t) :
    (s.ES = .running ∧ s.CANCEL = true ∧ t = (endRun none s).reply .stopReturned) ∨
    (engineNext s ∧ s.MEM.get s.PC.toNat = 0x00 ∧
      t = endRun (some (.halted (s.PC + 1))) { s.takeTurn with PC := s.PC + 1 }) ∨
    (engineNext s ∧ s.MEM.get s.PC.toNat ≠ 0x00 ∧ t = { s.takeTurn with PC := s.PC + 1 }) ∨
    (s.ES = .stopped ∧ t = s.takeTurn) ∨
    (∃ op, hostNext s op ∧ hostStep Config.hardware op s.takeTurn = .next t) := by
  rcases turn_cases s with ⟨hES, hc⟩ | ⟨op, hn⟩ | hn | ⟨hES, ha⟩
  · rw [step_stopPending hES hc] at h; cases h; exact .inl ⟨hES, hc, rfl⟩
  · rw [step_hostNext hn] at h; exact .inr (.inr (.inr (.inr ⟨op, hn, h⟩)))
  · rw [step_engineNext hn] at h
    rcases engineStep_cases s.takeTurn with ⟨hc, _⟩ | ⟨_, hb, e⟩ | ⟨_, hb, e⟩
    · simp [hn.2.1] at hc
    · rw [e] at h; cases h; exact .inr (.inl ⟨hn, hb, rfl⟩)
    · rw [e] at h; cases h; exact .inr (.inr (.inl ⟨hn, hb, rfl⟩))
  · rw [step_idle hES ha] at h; cases h; exact .inr (.inr (.inr (.inl ⟨hES, rfl⟩)))

/-! ## Runs -/

@[simp] theorem run_zero (s : State) : run 0 s = .next s := rfl

theorem run_succ_of_step {s t : State} (h : step s = .next t) (k : Nat) : run (k + 1) s = run k t := by
  simp [run, h]

/-- A run that gets anywhere takes its first step. -/
theorem run_succ_next {s t : State} {k : Nat} (h : run (k + 1) s = .next t) :
    ∃ u, step s = .next u ∧ run k u = .next t := by
  cases hs : step s with
  | next u => exact ⟨u, rfl, by simpa [run, hs] using h⟩
  | fault r => simp [run, hs] at h
  | refused r => simp [run, hs] at h

/-- One more step at the end of a run. -/
theorem run_snoc {s t : State} {k : Nat} (h : run k s = .next t) : run (k + 1) s = step t := by
  induction k generalizing s with
  | zero => cases h; simp only [run]; cases step t <;> rfl
  | succ k ih =>
    obtain ⟨u, hu, hk⟩ := run_succ_next h
    rw [run_succ_of_step hu, ih hk]

/-- What a step keeps, a run keeps. -/
theorem run_keeps {Q : State → Prop} (hQ : ∀ s t, Q s → step s = .next t → Q t) {k : Nat} {s t : State}
    (hs : Q s) (h : run k s = .next t) : Q t := by
  induction k generalizing s with
  | zero => cases h; exact hs
  | succ k ih =>
    obtain ⟨u, hu, hk⟩ := run_succ_next h
    exact ih (hQ s u hs hu) hk

/-- The model's `run` is the host interface's. -/
theorem run_eq_core_run (k : Nat) (s : State) : run k s = Host.Core.run Sys2Proof.core k s := by
  induction k generalizing s with
  | zero => rfl
  | succ k ih =>
    have hs : Sys2Proof.core.step s = step s := rfl
    simp only [run, Host.Core.run, hs]
    cases step s with
    | next t => exact ih t
    | fault r => rfl
    | refused r => rfl

end Sys2Proof.Machine
end

