-- ==== Sys2Proof/Tests/Slice0.lean ====
section
/-! SUPPORT. The model's own tests: the WellFormed smoke, decoding from words written out by hand from R52, the
spec's vectors (95_test_vectors.md: Q, T, W, Z, V) on small states, and a witness for the hypotheses of every
statement of Certificates/Slice0/Obligations.lean. -/

namespace Sys2Proof.Tests

open Sys2Proof Sys2Proof.Machine

/-! ## Small states -/

/-- A machine whose registers are as the T vectors have them, at `pc`, with a given `MEM` and schedule. -/
def at_ (es : ExecState) (pc : Addr) (mem : Memory) (agenda : List Turn) : State :=
  { State.reset with MEM := mem, PC := pc, ES := es, LOADED := true, STATUS := [], agenda := agenda }

/-- The machine `running` at `pc` with an idle HOST. -/
def running (pc : Addr) (mem : Memory) : State := at_ .running pc mem []

/-- The machine `stopped` at 0x9000 with one HOST operation to come. -/
def stopped (op : HostOp) : State := at_ .stopped 0x9000 [] [.host op]

/-- The state a step answers, or the state itself. -/
def after (s : State) : State :=
  match step s with
  | .next t => t
  | .fault _ => s
  | .refused _ => s

/-- The last reply. -/
def answer (s : State) : Option Reply := s.replies.getLast?

/-! ## WellFormed: the one check, with an ill-formed term (R58) -/

theorem smoke_skp_zero_refused : (Instr.skp 0x00).wellFormed = false := by decide

theorem smoke_skp_accepted : (Instr.skp 0x01).wellFormed = true ∧ (Instr.skp 0xFF).wellFormed = true := by decide

theorem smoke_hlt_accepted : Instr.hlt.wellFormed = true := by decide

/-! ## Decoding, from the bit patterns of R52 -/

theorem test_decode_hlt : decode [0b00000000#8] = .ok (.hlt, []) := rfl

theorem test_decode_skp_rows :
    decode [0b10000001#8] = .ok (.skp 0x81, []) ∧ decode [0b01000000#8] = .ok (.skp 0x40, []) ∧
    decode [0b00100000#8] = .ok (.skp 0x20, []) ∧ decode [0b00010000#8] = .ok (.skp 0x10, []) ∧
    decode [0b00001000#8] = .ok (.skp 0x08, []) ∧ decode [0b00000100#8] = .ok (.skp 0x04, []) ∧
    decode [0b00000010#8] = .ok (.skp 0x02, []) ∧ decode [0b00000001#8] = .ok (.skp 0x01, []) :=
  ⟨rfl, rfl, rfl, rfl, rfl, rfl, rfl, rfl⟩

/-- Program P2 (R53): `A9 42` is two instructions. -/
theorem test_decode_stream_p2 :
    decodeStream [0xEA, 0xA9, 0x42, 0xAA, 0x00] = [.skp 0xEA, .skp 0xA9, .skp 0x42, .skp 0xAA, .hlt] := by decide

theorem test_decode_nothing : decode [] = .error .noByte := rfl

/-- R58's syntax table: `HLT` is 00, `SKP $nn` is nn. -/
theorem test_encode : encode .hlt = [0x00] ∧ encode (.skp 0x4C) = [0x4C] := by decide

/-! ## The fresh machine (R22, R23, R144, vector Z3) -/

theorem test_reset_memory_wf : Memory.wf State.reset.MEM := by decide

theorem test_reset_registers :
    State.reset.A = 0 ∧ State.reset.X = 0 ∧ State.reset.Y = 0 ∧ State.reset.P = 0x04 ∧ State.reset.SP = 0xFD ∧
    State.reset.PC = 0x0000 ∧ State.reset.flagI = true := by decide

/-! ## Memory (vectors W2, W5, W7, W10) -/

theorem test_w2_address_wraps : memRead (memWrite [] 0x10000 0x34) 0x20000 = 0x34 := by decide

theorem test_w5_value_wraps_to_zero : memWrite [(0x0200, 0x77)] 0x0200 0x100 = [] := by decide

theorem test_w7_negative : memWrite [] (-1) (-1) = [(0xFFFF, 0xFF)] := by decide

theorem test_w10_neighbours :
    memWrite [(0x00FF, 1), (0x0100, 2), (0x0101, 3)] 0x0100 9 = [(0x00FF, 1), (0x0100, 9), (0x0101, 3)] := by decide

/-! ## Fetch (vectors Q1, Q2) -/

theorem test_q1 : (fetch (running 0x8000 [(0x8000, 0xEA)])).1 = 0xEA ∧
    (fetch (running 0x8000 [(0x8000, 0xEA)])).2.PC = 0x8001 := by decide

theorem test_q2_wraps : (fetch (running 0xFFFF [(0xFFFF, 0x42)])).1 = 0x42 ∧
    (fetch (running 0xFFFF [(0xFFFF, 0x42)])).2.PC = 0x0000 := by decide

/-! ## One ENGINE step (vectors T1, T2, T3, T4, T5, T6) -/

theorem test_t1_hlt : (after (running 0x9000 [])).PC = 0x9001 ∧ (after (running 0x9000 [])).ES = .stopped ∧
    (after (running 0x9000 [])).STATUS = [.halted 0x9001] := by decide

theorem test_t2_hlt_wraps : (after (running 0xFFFF [])).PC = 0x0000 ∧ (after (running 0xFFFF [])).ES = .stopped := by
  decide

theorem test_t3_skp : ∀ b ∈ ([0x01, 0x4C, 0xA9, 0xEA, 0xFF] : List Byte),
    after (running 0x8000 [(0x8000, b)]) = running 0x8001 [(0x8000, b)] := by decide

theorem test_t4_skp_wraps : (after (running 0xFFFF [(0xFFFF, 0xEA)])).PC = 0x0000 ∧
    (after (running 0xFFFF [(0xFFFF, 0xEA)])).ES = .running := by decide

theorem test_t5_cancel_before_fetch : (after { running 0x9000 [] with CANCEL := true }).PC = 0x9000 ∧
    (after { running 0x9000 [] with CANCEL := true }).ES = .stopped := by decide

theorem test_t6_stopped : after (at_ .stopped 0x1234 [] []) = at_ .stopped 0x1234 [] [] := by decide

/-- The placed word runs in the very next step after reset. -/
theorem test_placed_hlt : (after (State.reset.withFetchWord 8 0x00)).ES = .stopped ∧
    (after (State.reset.withFetchWord 8 0x00)).PC = 0x0001 := by decide

theorem test_placed_skp : (after (State.reset.withFetchWord 8 0xFF)).ES = .running ∧
    (after (State.reset.withFetchWord 8 0xFF)).PC = 0x0001 := by decide

/-! ## RESET (vectors Z1, Z5) -/

theorem test_z1 : (after { stopped .reset with MEM := [(0xFFFC, 0x34), (0xFFFD, 0x12)] }).PC = 0x1234 := by decide

theorem test_z5 :
    let t := after { stopped .reset with
      MEM := [(0xFFFD, 0x80)], A := 0x7F, X := 0x80, Y := 0xFF, P := 0xFF, SP := 0x00 }
    t.A = 0 ∧ t.X = 0 ∧ t.Y = 0 ∧ t.SP = 0xFD ∧ t.P = 0x04 ∧ t.PC = 0x8000 := by decide

/-! ## Lifecycle (vectors V1, V2, V3, V4, V8) -/

theorem test_v1_start_unloaded :
    (after { State.reset with agenda := [.host .start] }).ES = .stopped ∧
    (after { State.reset with agenda := [.host .start] }).STATUS =
      [.resetDone 0x0000 0xFD, .startIgnored .noCartridge] := by decide

theorem test_v2_start : after (stopped .start) =
    { at_ .running 0x9000 [] [] with replies := [.startReturned] } := by decide

theorem test_v3_start_running :
    after (at_ .running 0x9000 [] [.host .start]) =
      { at_ .running 0x9000 [] [] with
        STATUS := [.startIgnored .alreadyRunning], replies := [.startReturned] } := by decide

theorem test_v4_stop :
    after (after (at_ .running 0x9000 [] [.host .stop])) =
      { at_ .stopped 0x9000 [] [] with CANCEL := true, replies := [.stopReturned] } := by decide

theorem test_v8_inspect_running : answer (after (at_ .running 0x9000 [] [.host .inspect])) =
    some (.inspected { A := 0, X := 0, Y := 0, P := 0x04, SP := 0xFD, PC := 0x9000, ES := .running }) := by decide

/-! ## LOAD (vectors M1, M2, M3, M18, M13: the images that need no bank) -/

theorem test_m1_empty : answer (after (stopped (.load (some [])))) = some (.loaded (.fail .formatError)) := by decide

theorem test_m2_short : loadError ([0x4E, 0x45, 0x53, 0x1A, 0x01] ++ List.replicate 10 0) = some .formatError := by
  decide

theorem test_m3_truncated : loadError ([0x4E, 0x45, 0x53, 0x1A, 0x01] ++ List.replicate 11 0) = some .truncatedError := by
  decide

theorem test_m19_order : loadError ([0x4E, 0x45, 0x53, 0x1B, 0x02] ++ List.replicate 11 0) = some .formatError := by
  decide

/-! ## The extension contract (R94, R95) on an invented entry -/

/-- An entry with two operand bytes, which it stores, low byte first, into `PC`. -/
def jumpEntry : ExtEntry :=
  { addressingMode := "", sideEffects := "", cycleCost := 0, operandBytes := 2
    body := fun bs => .regWrite .PC ((bs.getD 1 0).toNat * 256 + (bs.getD 0 0).toNat) .done }

theorem test_extension_operands :
    (runEntry jumpEntry (running 0x8001 [(0x8001, 0x34), (0x8002, 0x12)])).PC = 0x1234 := by decide

theorem test_extension_keeps_halt : (extEntry { Config.hardware with ext := fun _ => some jumpEntry } 0x00).isNone ∧
    (extEntry { Config.hardware with ext := fun _ => some jumpEntry } 0x01).isSome := by decide

/-! ## Witnesses: a state and operands that meet the hypotheses of each statement, one theorem a clause -/

/-- An image with bank count `n` and `size` bytes of 0xEA after its header. -/
def image (n : Byte) (size : Nat) : List Byte :=
  [0x4E, 0x45, 0x53, 0x1A, n] ++ List.replicate 11 0x00 ++ List.replicate size 0xEA

theorem image_length (n : Byte) (size : Nat) : (image n size).length = 16 + size := by
  simp only [image, List.length_append, List.length_replicate, List.length_cons, List.length_nil]

theorem image_header_length (n : Byte) :
    ([0x4E, 0x45, 0x53, 0x1A, n] ++ List.replicate 11 (0x00 : Byte)).length = 16 := rfl

theorem image_passesFormat (n : Byte) (size : Nat) : passesFormat (image n size) :=
  ⟨by rw [image_length]; exact Nat.le_add_right _ _, rfl⟩

theorem image_declaredBanks (n : Byte) (size : Nat) : declaredBanks (image n size) = n.toNat := rfl

theorem image_passesLength {n : Byte} {size : Nat} : passesLength (image n size) ↔ n.toNat * 16384 ≤ size := by
  unfold passesLength
  rw [image_length, image_declaredBanks]
  exact Nat.add_le_add_iff_left

/-- Vectors M7, M9, M10 and M17: as many banks as the count says. -/
theorem image_loadable {n : Byte} {size : Nat} (hn : n.toNat ≠ 0) (h : n.toNat * 16384 ≤ size) :
    loadable (image n size) := ⟨image_passesFormat n size, image_passesLength.2 h, hn⟩

theorem witness_ReadAfterWriteReturnsMaskedValue :
    Memory.wf [(5, 1)] ∧ (65535 : Int) % 65536 = (-1) % 65536 ∧ (0 : Int) % 65536 ≠ (-1) % 65536 := by decide

theorem witness_PokeStoresOneMaskedByte :
    ((stopped (.poke 0x1FFFF 0x1FF)).MEM.wf ∧ hostNext (stopped (.poke 0x1FFFF 0x1FF)) (.poke 0x1FFFF 0x1FF) ∧
      (stopped (.poke 0x1FFFF 0x1FF)).ES = .stopped) ∧
    hostNext (at_ .running 0 [] [.host (.poke 0 0)]) (.poke 0 0) ∧
    (at_ .running 0 [] [.host (.poke 0 0)]).ES = .running := by decide

theorem witness_PeekAndInspectOnlyAnswer :
    hostNext (at_ .running 0 [] [.host (.peek (-1))]) (.peek (-1)) ∧
    hostNext (at_ .running 0 [] [.host .inspect]) .inspect := by decide

theorem witness_RegisterWritesMaskToWidth : Reg.PC ≠ Reg.A := by decide

theorem witness_BlockCopyOrderIsUnobservable :
    Memory.wf [(0xFFFF, 7)] ∧ 0xFFFE + ([1, 0] : List Byte).length ≤ 65536 := by decide

theorem witness_FetchReadsThenAdvances : (running 0xFFFF []).PC = 0xFFFF := by decide

/-- The hardware's parameters with one extension entry, at opcode 0x4C. -/
def extended : Config.Params :=
  { Config.hardware with ext := fun op => if op = 0x4C then some jumpEntry else none }

theorem witness_EngineStepTestsCancelThenFetchesThenDispatches_stopped :
    (at_ .stopped 0 [] []).ES = .stopped ∧ (running 0 []).ES = .running ∧
    ({ running 0 [] with CANCEL := true } : State).CANCEL = true := by decide

theorem witness_EngineStepTestsCancelThenFetchesThenDispatches_halt :
    (running 0xFFFF []).CANCEL = false ∧ (running 0xFFFF []).MEM.get (running 0xFFFF []).PC.toNat = 0x00 := by decide

theorem witness_EngineStepTestsCancelThenFetchesThenDispatches_entry :
    (running 0 [(0, 0x4C)]).CANCEL = false ∧ (running 0 [(0, 0x4C)]).MEM.get (running 0 [(0, 0x4C)]).PC.toNat ≠ 0x00 ∧
    extended.ext ((running 0 [(0, 0x4C)]).MEM.get (running 0 [(0, 0x4C)]).PC.toNat) = some jumpEntry :=
  ⟨rfl, by decide, rfl⟩

theorem witness_EngineStepTestsCancelThenFetchesThenDispatches_skip :
    (running 0 [(0, 0xFF)]).CANCEL = false ∧ (running 0 [(0, 0xFF)]).MEM.get (running 0 [(0, 0xFF)]).PC.toNat ≠ 0x00 ∧
    extended.ext ((running 0 [(0, 0xFF)]).MEM.get (running 0 [(0, 0xFF)]).PC.toNat) = none :=
  ⟨rfl, by decide, rfl⟩

theorem witness_StepRunsTheDecodedInstruction :
    engineNext (running 0xFFFF [(0xFFFF, 0xFF)]) ∧
    decode [(running 0xFFFF [(0xFFFF, 0xFF)]).MEM.get (running 0xFFFF [(0xFFFF, 0xFF)]).PC.toNat] = .ok (.skp 0xFF, []) :=
  ⟨by decide, rfl⟩

theorem witness_HaltStopsTheRun :
    (engineNext (running 0xFFFF []) ∧ (running 0xFFFF []).MEM.get (running 0xFFFF []).PC.toNat = 0x00 ∧
      (running 0xFFFF []).LOADED = true) ∧
    ({ running 0x9000 [] with CANCEL := true } : State).ES = .running ∧
    ({ running 0x9000 [] with CANCEL := true } : State).CANCEL = true ∧
    ({ running 0x9000 [] with CANCEL := true } : State).MEM.get 0x9000 = 0x00 := by decide

theorem witness_SkipOnlyAdvancesThePC :
    engineNext (running 0xFFFF [(0xFFFF, 0x01)]) ∧
    (running 0xFFFF [(0xFFFF, 0x01)]).MEM.get (running 0xFFFF [(0xFFFF, 0x01)]).PC.toNat ≠ 0x00 ∧
    (running 0xFFFF [(0xFFFF, 0x01)]).PC = 0xFFFF := by decide

/-- A run of one ENGINE step and one PEEK, as R88 and R89 let the HOST act during a run. -/
theorem witness_SkipOnlyAdvancesThePC_run :
    let s := at_ .running 0xFFFF [(0xFFFF, 0xA9)] [.engine, .host (.peek 0xFFFF)]
    (∀ image, Turn.host (.load image) ∉ s.agenda) ∧ Turn.host .reset ∉ s.agenda ∧ resetRegisters s ∧
    run 2 s = .next { running 0x0000 [(0xFFFF, 0xA9)] with replies := [.peeked 0xA9] } :=
  ⟨fun _ h => by simp [at_] at h, by decide, by decide, rfl⟩

theorem witness_InstructionFrame :
    exec (.skp 0xEA) (running 0 []) = .next (running 0 []) ∧ Instr.skp 0xEA ≠ .hlt ∧
    exec .hlt (running 0 []) = .next { running 0 [] with ES := .stopped, STATUS := [.halted 0] } :=
  ⟨rfl, by decide, rfl⟩

theorem witness_PlacedWordRunsNext : State.reset.MEM.wf := by decide

theorem witness_StoppedEngineNeverMoves :
    (at_ .stopped 0xFFFF [] []).ES = .stopped ∧ (at_ .stopped 0xFFFF [] []).agenda = [] := by decide

theorem witness_PokedByteIsFetched :
    let s := at_ .stopped 0xFFFF [] [.host (.poke 0xFFFF 0x101), .host .start, .engine]
    s.MEM.wf ∧ s.ES = .stopped ∧ s.LOADED = true ∧
      s.agenda = .host (.poke s.PC.toNat 0x101) :: .host .start :: .engine :: [] := by decide

theorem witness_StreamsRoundTrip : ∀ i ∈ [Instr.hlt, .skp 0x01, .skp 0xFF], i.wellFormed = true := by decide

theorem witness_RunStopsAtTheFirstHaltByte :
    let s := running 0xFFFE [(0xFFFE, 1), (0xFFFF, 2)]
    uninterrupted s ∧ (∀ k < 2, s.MEM.get (s.streamAddr k) ≠ 0x00) ∧ s.MEM.get (s.streamAddr 2) = 0x00 := by decide

theorem witness_RunIsBoundedWhenLowMemoryIsZero :
    (uninterrupted (running 0x7FFF []) ∧ lowMemoryZero (running 0x7FFF []) ∧ (running 0x7FFF []).PC.toNat < 0x8000) ∧
    (uninterrupted (running 0x8000 []) ∧ lowMemoryZero (running 0x8000 []) ∧ 0x8000 ≤ (running 0x8000 []).PC.toNat) :=
  ⟨⟨by decide, fun _ _ => rfl, by decide⟩, by decide, fun _ _ => rfl, by decide⟩

/-- 0xEA at every listed address. -/
def filled (l : List Nat) : Memory := l.map (fun j => (j, 0xEA))

theorem get_filled (l : List Nat) (i : Nat) (h : i ∈ l) : (filled l).get i = 0xEA := by
  induction l with
  | nil => cases h
  | cons j l ih =>
    show (if i = j then (0xEA : Byte) else (filled l).get i) = 0xEA
    split
    · rfl
    · rename_i hne
      exact ih ((List.mem_cons.1 h).resolve_left hne)

/-- Both sides of the equivalence are met somewhere: a memory without a 0x00 byte, and fresh memory. -/
theorem witness_RunDivergesExactlyWithoutHaltByte :
    (∃ m : Memory, uninterrupted (running 0 m) ∧ ∀ i < 65536, (running 0 m).MEM.get i ≠ 0x00) ∧
    uninterrupted (running 0 []) ∧ (running 0 []).MEM.get 0 = 0x00 := by
  refine ⟨?_, by decide⟩
  generalize hl : List.range 65536 = l
  refine ⟨filled l, ⟨rfl, rfl, rfl⟩, fun i hi h => ?_⟩
  have hm : (filled l).get i = 0xEA := get_filled l i (hl ▸ List.mem_range.2 hi)
  exact absurd (hm.symm.trans h) (by decide)

/-- The fresh machine, whose HOST will load an image. -/
def beforeLoad (bytes : List Byte) : State :=
  { State.powerOn 0 0 0 0 0 with agenda := [.host (.load (some bytes))] }

theorem beforeLoad_step {bytes : List Byte} (h : loadable bytes) : step (beforeLoad bytes) =
    .next (loadMapped Config.hardware bytes (beforeLoad bytes).takeTurn) := by
  rw [step_hostNext (op := .load (some bytes)) ⟨rfl, rfl⟩]
  exact hostLoad_loadable rfl h

theorem oneBank_loadable : loadable (image 0x01 16384) := image_loadable (by decide) (by decide)

theorem loadMapped_LOADED (bytes : List Byte) (s : State) :
    (loadMapped Config.hardware bytes s).LOADED = true := by rw [loadMapped_eq]

theorem witness_RegisterFileAfterAnyRun_reachable : ∃ s, Reachable s ∧ s.LOADED = true :=
  ⟨_, .step _ _ (.powerOn 0 0 0 0 0 _) (beforeLoad_step oneBank_loadable), loadMapped_LOADED _ _⟩

theorem witness_RegisterFileAfterAnyRun_step :
    (running 0xFFFF [(0xFFFF, 1)]).ES = .running ∧
    step (running 0xFFFF [(0xFFFF, 1)]) = .next (running 0x0000 [(0xFFFF, 1)]) := ⟨rfl, rfl⟩

theorem witness_RegisterFileAfterAnyRun_run :
    uninterrupted (running 0xFFFF [(0xFFFF, 1)]) ∧
    (∀ j < 1, ∃ u, run j (running 0xFFFF [(0xFFFF, 1)]) = .next u ∧ u.ES = .running) ∧
    run 1 (running 0xFFFF [(0xFFFF, 1)]) = .next (running 0x0000 [(0xFFFF, 1)]) :=
  ⟨by decide, fun j hj => ⟨running 0xFFFF [(0xFFFF, 1)], by obtain rfl : j = 0 := by omega
                                                            rfl, rfl⟩, rfl⟩

theorem witness_StepKeepsInvariant : Inv (running 0xFFFF [(0xFFFF, 1)]) ∧
    step (running 0xFFFF [(0xFFFF, 1)]) = .next (running 0x0000 [(0xFFFF, 1)]) := ⟨by decide, rfl⟩

/-- Running to Stopped by HLT, and by an observed stop request. -/
theorem witness_ExecutionStateChangesOnlyAsListed_stops :
    (step (running 0 []) =
      .next { running 1 [] with ES := .stopped, STATUS := [.halted 1] } ∧ engineNext (running 0 [])) ∧
    step { running 0 [] with CANCEL := true } =
      .next { running 0 [] with ES := .stopped, CANCEL := true, replies := [.stopReturned] } :=
  ⟨⟨rfl, by decide⟩, rfl⟩

/-- Stopped to Running by START. -/
theorem witness_ExecutionStateChangesOnlyAsListed_starts :
    (stopped .start).ES = .stopped ∧
    step (stopped .start) = .next { at_ .running 0x9000 [] [] with replies := [.startReturned] } := ⟨rfl, rfl⟩

/-- The run ends by HLT, and by an observed stop request. -/
theorem witness_EndOfRunIsPreciseAndSavesNothing :
    ((running 0xFFFF []).ES = .running ∧
      step (running 0xFFFF []) = .next { running 0x0000 [] with ES := .stopped, STATUS := [.halted 0x0000] }) ∧
    step { running 0xFFFF [] with CANCEL := true } =
      .next { running 0xFFFF [] with ES := .stopped, CANCEL := true, replies := [.stopReturned] } :=
  ⟨⟨rfl, rfl⟩, rfl⟩

/-- A step that resets: all three statements about what a step writes have it as their exceptional case. -/
theorem witness_RegisterFileWrittenOnlyByReset :
    hostNext { stopped .reset with A := 0x7F } .reset ∧
    step { stopped .reset with A := 0x7F } = .next { at_ .stopped 0x0000 [] [] with
      STATUS := [.resetDone 0x0000 0xFD], replies := [.resetReturned] } := ⟨by decide, rfl⟩

theorem witness_ProgramCounterWrittenOnlyByFetchAndReset :
    step (stopped .reset) = .next { at_ .stopped 0x0000 [] [] with
      STATUS := [.resetDone 0x0000 0xFD], replies := [.resetReturned] } := rfl

theorem witness_MemoryWrittenOnlyByPokeAndLoad :
    (stopped (.poke 0xFFFF 0xAB)).MEM.wf ∧
    step (stopped (.poke 0xFFFF 0xAB)) =
      .next { at_ .stopped 0x9000 [(0xFFFF, 0xAB)] [] with replies := [.pokeReturned] } := ⟨by decide, rfl⟩

theorem witness_LowMemoryIsConstantWithoutPoke :
    (running 0 [(0, 1)]).MEM.wf ∧ (∀ a v, Turn.host (.poke a v) ∉ (running 0 [(0, 1)]).agenda) ∧
    run 1 (running 0 [(0, 1)]) = .next (running 1 [(0, 1)]) := ⟨by decide, (fun _ _ h => nomatch h), rfl⟩

theorem witness_StatusIsAppendOnly :
    step (running 0 []) = .next { running 1 [] with ES := .stopped, STATUS := [.halted 1] } := rfl

theorem witness_LoadedAndCancelChangeOnlyAsListed_loaded :
    ∃ bytes t, loadable bytes ∧ step (beforeLoad bytes) = .next t ∧ (beforeLoad bytes).LOADED = false ∧
      t.LOADED = true :=
  ⟨_, _, oneBank_loadable, beforeLoad_step oneBank_loadable, rfl, loadMapped_LOADED _ _⟩

theorem witness_LoadedAndCancelChangeOnlyAsListed_cancel :
    (step (at_ .running 0 [] [.host .stop]) = .next { running 0 [] with CANCEL := true } ∧
      (at_ .running 0 [] [.host .stop]).CANCEL = false) ∧
    step { stopped .start with CANCEL := true } =
      .next { at_ .running 0x9000 [] [] with replies := [.startReturned] } := ⟨⟨rfl, rfl⟩, rfl⟩

theorem witness_NothingRunsWithoutALoad :
    (∀ image, Turn.host (.load image) ∉ [Turn.host .start]) ∧
    run 1 { State.powerOn 1 2 3 4 5 with agenda := [.host .start] } = .next { State.powerOn 1 2 3 4 5 with
      STATUS := [.startIgnored .noCartridge], replies := [.startReturned] } :=
  ⟨fun _ h => by simp at h, rfl⟩

/-- A LOAD that succeeds and then an INSPECT: the INSPECT that is performed comes after the LOAD. -/
theorem witness_PowerOnRegistersAreNeverRead :
    ∃ (agenda : List Turn) (t : State), Turn.host .inspect ∈ agenda ∧
      (∀ (j : Nat) (u : State), j < 2 → run j { State.powerOn 0 0 0 0 0 with agenda := agenda } = .next u →
        hostNext u .inspect → u.LOADED = true) ∧
      run 2 { State.powerOn 0 0 0 0 0 with agenda := agenda } = .next t ∧ t.LOADED = true := by
  obtain ⟨bytes, hb⟩ : ∃ bytes, loadable bytes := ⟨_, oneBank_loadable⟩
  let s : State := { State.powerOn 0 0 0 0 0 with agenda := [.host (.load (some bytes)), .host .inspect] }
  have e1 : step s = .next (loadMapped Config.hardware bytes s.takeTurn) := by
    rw [step_hostNext (op := .load (some bytes)) ⟨rfl, rfl⟩]
    exact hostLoad_loadable rfl hb
  have e2 : step (loadMapped Config.hardware bytes s.takeTurn) =
      .next (hostInspect (loadMapped Config.hardware bytes s.takeTurn).takeTurn) :=
    step_hostNext (op := .inspect) (by rw [loadMapped_eq]; exact ⟨rfl, rfl⟩)
  refine ⟨[.host (.load (some bytes)), .host .inspect], _, by simp, fun j u hj hu hn => ?_,
    (run_succ_of_step e1 1).trans (run_succ_of_step e2 0), loadMapped_LOADED bytes s.takeTurn⟩
  rcases j with _ | _ | j
  · cases hu; simp [hostNext] at hn
  · rw [run_succ_of_step e1 0] at hu; cases hu; exact loadMapped_LOADED bytes s.takeTurn
  · omega

theorem witness_StepsCompleteUnlessTheHostViolatesItsDuty_completes :
    (hostNext (stopped .stop) .stop ∧ HostOp.stop.disciplined (stopped .stop) = true ∧
      ∀ image, HostOp.stop = .load (some image) →
        ¬ (passesFormat image ∧ passesLength image ∧ declaredBanks image = 0)) ∧
    ∀ op, ¬ hostNext (running 0 []) op :=
  ⟨⟨by decide, by decide, fun _ h => by cases h⟩, fun _ h => by cases h.2⟩

/-- Vectors M21, Z8 and V9, and M13. -/
theorem witness_StepsCompleteUnlessTheHostViolatesItsDuty_refuses :
    hostNext (at_ .running 0 [] [.host (.load none)]) (.load none) ∧
    hostNext (at_ .running 0 [] [.host .reset]) .reset ∧
    hostNext (at_ .running 0 [] [.host (.poke 0 0)]) (.poke 0 0) ∧
    hostNext (stopped (.load (some (image 0x00 0)))) (.load (some (image 0x00 0))) ∧
    passesFormat (image 0x00 0) ∧ passesLength (image 0x00 0) ∧ declaredBanks (image 0x00 0) = 0 := by decide

theorem witness_ResetSetsTheRegisterFile :
    doReset Config.hardware (at_ .stopped 0x9000 [] []) =
      { at_ .stopped 0x0000 [] [] with STATUS := [.resetDone 0x0000 0xFD] } := rfl

theorem witness_ResetOperationRunsReset :
    (hostNext (stopped .reset) .reset ∧ (stopped .reset).ES = .stopped) ∧
    hostNext (at_ .running 0 [] [.host .reset]) .reset ∧
    (at_ .running 0 [] [.host .reset]).ES = .running := by decide

theorem witness_ResetVectorExample :
    (at_ .stopped 0 [(0xFFFD, 0x90)] []).MEM.get 0xFFFC = 0x00 ∧
    (at_ .stopped 0 [(0xFFFD, 0x90)] []).MEM.get 0xFFFD = 0x90 := by decide

/-- Vectors M2 (15 bytes) and M3, at the boundaries of the two length tests. -/
theorem witness_LoadFailuresChangeOnlyStatus :
    let short : List Byte := [0x4E, 0x45, 0x53, 0x1A, 0x01, 0, 0, 0, 0, 0, 0, 0, 0, 0, 0]
    (hostNext (stopped (.load none)) (.load none) ∧ (stopped (.load none)).ES = .stopped) ∧
    (hostNext (stopped (.load (some short))) (.load (some short)) ∧ ¬ passesFormat short) ∧
    hostNext (stopped (.load (some (image 0x01 0)))) (.load (some (image 0x01 0))) ∧
    passesFormat (image 0x01 0) ∧ ¬ passesLength (image 0x01 0) := by decide

/-- Vector M6: one byte below the length that passes. -/
theorem witness_LoadFailuresChangeOnlyStatus_oneByteShort : ¬ passesLength (image 0x01 16383) := by
  rw [image_passesLength]; decide

/-- The LOAD statements, with one bank, with two (M9) and with 255 (M17). -/
theorem witness_LoadMapsTheBanks (n : Byte) (hn : n.toNat ≠ 0) :
    let s := stopped (.load (some (image n (n.toNat * 16384))))
    s.MEM.wf ∧ s.ES = .stopped ∧ hostNext s (.load (some (image n (n.toNat * 16384)))) ∧
      loadable (image n (n.toNat * 16384)) ∧ declaredBanks (image n (n.toNat * 16384)) = n.toNat :=
  ⟨Memory.wf_nil, rfl, ⟨rfl, rfl⟩, image_loadable hn (Nat.le_refl _), rfl⟩

theorem stopped_hostNext (op : HostOp) :
    (stopped op).MEM.wf ∧ (stopped op).ES = .stopped ∧ hostNext (stopped op) op := ⟨Memory.wf_nil, rfl, rfl, rfl⟩

theorem witness_LoadResetsFromTheMappedVector :
    ∃ bytes, (stopped (.load (some bytes))).MEM.wf ∧ (stopped (.load (some bytes))).ES = .stopped ∧
      hostNext (stopped (.load (some bytes))) (.load (some bytes)) ∧ loadable bytes ∧ declaredBanks bytes = 2 :=
  ⟨image 0x02 32768, (stopped_hostNext _).1, (stopped_hostNext _).2.1, (stopped_hostNext _).2.2,
    image_loadable (by decide) (by decide), rfl⟩

theorem witness_WindowsEqualTheBanks :
    let header : List Byte := List.replicate 11 0xFF
    let B : List Byte := List.replicate 16384 0xEA
    let B2 : List Byte := List.replicate 16384 0x00
    header.length = 11 ∧ B.length = 16384 ∧ B2.length = 16384 ∧
    hostNext (stopped (.load (some ([0x4E, 0x45, 0x53, 0x1A, 0x01] ++ header ++ B))))
      (.load (some ([0x4E, 0x45, 0x53, 0x1A, 0x01] ++ header ++ B))) ∧
    hostNext (stopped (.load (some ([0x4E, 0x45, 0x53, 0x1A, 0x02] ++ header ++ B ++ B2))))
      (.load (some ([0x4E, 0x45, 0x53, 0x1A, 0x02] ++ header ++ B ++ B2))) ∧
    Memory.wf [] :=
  ⟨List.length_replicate, List.length_replicate, List.length_replicate, ⟨rfl, rfl⟩, ⟨rfl, rfl⟩, Memory.wf_nil⟩

/-- Vectors M7 and M15: the same image with 8192 bytes after its program data. -/
theorem witness_LoadIgnoresTheUnreadBytes :
    (at_ .stopped 0 [] []).ES = .stopped ∧ loadable (image 0x01 16384) ∧ loadable (image 0x01 24576) ∧
    (∀ i < 5, (image 0x01 16384)[i]? = (image 0x01 24576)[i]?) ∧
    (∀ i, 16 ≤ i → i < 16 + 16384 * declaredBanks (image 0x01 16384) → i < 32784 →
      (image 0x01 16384)[i]? = (image 0x01 24576)[i]?) := by
  refine ⟨rfl, image_loadable (by decide) (by decide), image_loadable (by decide) (by decide), fun i hi => ?_,
    fun i h16 hi _ => ?_⟩
  · have key (size : Nat) : (image 0x01 size)[i]? =
        ([0x4E, 0x45, 0x53, 0x1A, 0x01] ++ List.replicate 11 0x00 : List Byte)[i]? :=
      List.getElem?_append_left (by rw [image_header_length]; omega)
    exact (key _).trans (key _).symm
  · rw [image_declaredBanks] at hi
    have hi : i < 16400 := hi
    unfold image
    rw [List.getElem?_append_right (by rw [image_header_length]; exact h16),
      List.getElem?_append_right (by rw [image_header_length]; exact h16), image_header_length,
      List.getElem?_replicate, List.getElem?_replicate, if_pos (by omega), if_pos (by omega)]

theorem witness_ReloadLeavesNoTraceOfTheFirstImage :
    (at_ .stopped 0 [(0x0010, 0x99)] []).MEM.wf ∧ (at_ .stopped 0 [(0x0010, 0x99)] []).ES = .stopped ∧
    loadable (image 0x02 32768) ∧ loadable (image 0x01 16384) :=
  ⟨by decide, rfl, image_loadable (by decide) (by decide), image_loadable (by decide) (by decide)⟩

/-- Vector W8, at the last offset. -/
theorem witness_MirrorIsACopy :
    (at_ .stopped 0 [] []).MEM.wf ∧ (at_ .stopped 0 [] []).ES = .stopped ∧ loadable (image 0x01 16384) ∧
    declaredBanks (image 0x01 16384) = 1 ∧ 16383 < 16384 :=
  ⟨Memory.wf_nil, rfl, image_loadable (by decide) (by decide), rfl, by decide⟩

theorem witness_WorkedExampleImageLoads :
    let bank : List Byte := List.replicate 0x3FFC 0xEA ++ [0x00, 0x90, 0xEA, 0xEA]
    let image : List Byte := [0x4E, 0x45, 0x53, 0x1A, 0x01] ++ List.replicate 11 0xEA ++ bank
    (stopped (.load (some image))).MEM.wf ∧ (stopped (.load (some image))).ES = .stopped ∧
    hostNext (stopped (.load (some image))) (.load (some image)) :=
  ⟨Memory.wf_nil, rfl, rfl, rfl⟩

theorem witness_StartTakesEffectOrIsIgnored :
    (hostNext (stopped .start) .start ∧ (stopped .start).ES = .stopped ∧ (stopped .start).LOADED = true) ∧
    (hostNext (at_ .running 0 [] [.host .start]) .start ∧ (at_ .running 0 [] [.host .start]).ES = .running) ∧
    hostNext { State.reset with agenda := [.host .start] } .start ∧ State.reset.LOADED = false := by decide

theorem witness_StopRequestsAndTheNextStepEndsTheRun :
    (hostNext (at_ .running 0xFFFF [] [.host .stop]) .stop ∧
      (at_ .running 0xFFFF [] [.host .stop]).ES = .running) ∧
    ({ stopped .start with CANCEL := true } : State).CANCEL = true := by decide

theorem witness_StopWhileStoppedIsIgnored :
    hostNext (stopped .stop) .stop ∧ (stopped .stop).ES = .stopped := by decide

theorem witness_StartThenStopEndsStopped :
    (let s := at_ .stopped 0 [] (.host .start :: (List.replicate 2 .engine ++ [.host .stop]))
     s.ES = .stopped ∧ s.agenda = .host .start :: (List.replicate 2 .engine ++ [.host .stop])) ∧
    (hostNext (stopped .stop) .stop ∧ (stopped .stop).ES = .stopped) ∧
    (let s := at_ .stopped 0 [] [.host .start, .host .start]
     s.ES = .stopped ∧ s.LOADED = true ∧ s.agenda = .host .start :: .host .start :: []) := by decide

theorem witness_StartContinuesWhereTheRunStopped :
    (let s := at_ .running 0xFFFF [] [.engine, .host .start]
     s.ES = .running ∧ s.CANCEL = false ∧ s.LOADED = true ∧ s.MEM.get s.PC.toNat = 0x00 ∧
       s.agenda = .engine :: .host .start :: []) ∧
    (let s := at_ .running 0xFFFF [] [.host .stop, .host .start]
     s.ES = .running ∧ s.CANCEL = false ∧ s.LOADED = true ∧ s.agenda = .host .stop :: .host .start :: []) := by decide

theorem witness_HandlersKeepTheContract : (running 0xFFFF [(0xFFFF, 0x4C)]).MEM.wf := by decide

theorem witness_ExtensionLeavesTheLoopAlone :
    (extended.resetSP = Config.hardware.resetSP ∧ extended.resetP = Config.hardware.resetP) ∧
    (running 0 []).MEM.get (running 0 []).PC.toNat = 0x00 ∧
    engineNext (running 0 [(0, 0xEA)]) ∧
    extended.ext ((running 0 [(0, 0xEA)]).MEM.get (running 0 [(0, 0xEA)]).PC.toNat) = none ∧
    Config.hardware.ext ((running 0 [(0, 0xEA)]).MEM.get (running 0 [(0, 0xEA)]).PC.toNat) = none :=
  ⟨⟨rfl, rfl⟩, rfl, by decide, rfl, rfl⟩

end Sys2Proof.Tests
end

section
/-! PROOF. The statements about the state (10_state.md). First what a transition can write, said once for the
stored state (`StepEffect`), once for the two control bits (`ControlEffect`) and once for `STATUS`; then the
statements, each read off from these; last the power-on registers. -/

namespace Sys2Proof.Machine

/-! ## Register access (R16) -/

/-- A read is in range (R16). -/
theorem readReg_lt (s : State) (r : Reg) : s.readReg r < 2 ^ r.width := by
  cases r <;> exact BitVec.isLt _

/-- Reading back the register just written (R16). -/
theorem readReg_writeReg_same (s : State) (r : Reg) (v : Int) :
    (((s.writeReg r v).readReg r : Nat) : Int) = v % 2 ^ r.width := by
  cases r <;> simp only [State.readReg, State.writeReg, Reg.width, BitVec.toNat_ofInt] <;> omega

/-- A write to one register leaves the others (R16). -/
theorem readReg_writeReg_of_ne (s : State) {q r : Reg} (v : Int) (h : q ≠ r) :
    (s.writeReg r v).readReg q = s.readReg q := by
  cases q <;> simp only [State.readReg, writeReg_A, writeReg_X, writeReg_Y, writeReg_P, writeReg_SP,
    writeReg_PC, if_neg h.symm]

/-- Settles O5, register by register. -/
theorem registerWritesMaskToWidth : Obligations.RegisterWritesMaskToWidth := by
  intro s r v
  refine ⟨readReg_writeReg_same s r v, readReg_lt s r, fun q hq => readReg_writeReg_of_ne s v hq, ?_⟩
  simp

/-! ## Power-on and reset (R22, R23) -/

/-- Settles O24: nothing is loaded in either state, so only the canonical form of the empty memory is left. -/
theorem invariantHoldsAtResetAndPowerOn : Obligations.InvariantHoldsAtResetAndPowerOn := by
  refine ⟨⟨Memory.wf_nil, ?_, ?_, ?_⟩, fun a x y p pc agenda => ⟨Memory.wf_nil, ?_, ?_, ?_⟩⟩ <;> nofun

/-- The vector of a memory that nothing has written (vector Z3). -/
theorem resetVector_nil : resetVector [] = 0x0000 := by rw [resetVector_eq]; rfl

/-- RESET while Stopped is Reset() and the return (R115). -/
theorem hostReset_stopped (cfg : Config.Params) {s : State} (hES : s.ES = .stopped) :
    hostReset cfg s = .next ((doReset cfg s).reply .resetReturned) := by
  simp [hostReset, hES]

/-- Settles O40: the step is the RESET, and the vector of an empty memory is 0x0000. -/
theorem resetStateIsResetOfPowerOn : Obligations.ResetStateIsResetOfPowerOn := by
  intro a x y p pc
  rw [step_hostNext (op := .reset) ⟨rfl, rfl⟩]
  refine (hostReset_stopped Config.hardware rfl).trans ?_
  rw [doReset_eq, takeTurn_MEM]
  simp only [State.powerOn, resetVector_nil]
  rfl

/-! ## What Reset() leaves in the register file (R142) -/

theorem doReset_resetRegisters (s : State) : resetRegisters (doReset Config.hardware s) := by
  rw [doReset_eq]; exact ⟨rfl, rfl, rfl, rfl, rfl⟩

theorem loadMapped_resetRegisters (image : List Byte) (s : State) :
    resetRegisters (loadMapped Config.hardware image s) := by
  rw [loadMapped_eq]; exact ⟨rfl, rfl, rfl, rfl, rfl⟩

theorem doReset_PC_toNat (cfg : Config.Params) (s : State) :
    (doReset cfg s).PC.toNat = (s.MEM.get 0xFFFD).toNat * 256 + (s.MEM.get 0xFFFC).toNat := by
  rw [doReset_eq, ← resetVector_eq]
  exact Nat.mod_eq_of_lt (resetVector_lt s.MEM)

theorem doReset_MEM (cfg : Config.Params) (s : State) : (doReset cfg s).MEM = s.MEM := by rw [doReset_eq]

/-! ## What a transition writes of the stored state -/

/-- `t` differs from `s` at most in the control bits `ES` and `CANCEL`, in `STATUS`, and in the model's own
two fields: `MEM`, the registers and `LOADED` are kept. -/
def KeepsStore (s t : State) : Prop :=
  t = { s with ES := t.ES, CANCEL := t.CANCEL, STATUS := t.STATUS, agenda := t.agenda, replies := t.replies }

/-- What a transition from `s` can write of the stored state. -/
inductive StepEffect (s : State) : State → Prop where
  /-- Nothing: an observed stop request, an idle turn, or a HOST operation that only answers or controls. -/
  | control {t : State} (keeps : KeepsStore s t) : StepEffect s t
  /-- Fetch() and one base instruction: `PC` advances (R87, R90, R91). -/
  | fetch {t : State} (hn : engineNext s)
      (ht : t = { s with PC := s.PC + 1, ES := t.ES, STATUS := t.STATUS, agenda := t.agenda }) : StepEffect s t
  /-- RESET (R115). -/
  | reset (hES : s.ES = .stopped) (hn : hostNext s .reset) :
      StepEffect s ((doReset Config.hardware s.takeTurn).reply .resetReturned)
  /-- A successful LOAD (R68). -/
  | load (image : List Byte) (hES : s.ES = .stopped) (hn : hostNext s (.load (some image)))
      (hl : loadable image) : StepEffect s (loadMapped Config.hardware image s.takeTurn)
  /-- POKE (R113). -/
  | poke (a v : Int) (hES : s.ES = .stopped) (hn : hostNext s (.poke a v)) :
      StepEffect s ({ s.takeTurn with MEM := memWrite s.MEM a v }.reply .pokeReturned)

theorem keepsStore_hostStart (s : State) : KeepsStore s (hostStart s) := by
  rcases hostStart_cases s with ⟨_, e⟩ | ⟨_, _, e⟩ | ⟨_, _, e⟩ <;> rw [e] <;> rfl

theorem keepsStore_hostStop (s : State) : KeepsStore s (hostStop s) := by
  rcases hostStop_cases s with ⟨_, e⟩ | ⟨_, e⟩ <;> rw [e] <;> rfl

/-- A step has one of these effects and no other: `step_next` and `hostStep_next`, sorted by what is written. -/
theorem step_effect {s t : State} (h : step s = .next t) : StepEffect s t := by
  rcases step_next h with ⟨_, _, rfl⟩ | ⟨hn, _, rfl⟩ | ⟨hn, _, rfl⟩ | ⟨_, rfl⟩ | ⟨op, hn, hop⟩
  · exact .control rfl
  · exact .fetch hn rfl
  · exact .fetch hn rfl
  · exact .control rfl
  · rcases hostStep_next hop with ⟨_, _, _, rfl, _, rfl⟩ | ⟨hES, image, rfl, hl, rfl⟩ | ⟨rfl, rfl⟩ | ⟨rfl, rfl⟩ |
      ⟨hES, rfl, rfl⟩ | ⟨_, rfl, rfl⟩ | ⟨a, v, hES, rfl, rfl⟩ | ⟨rfl, rfl⟩
    · exact .control rfl
    · exact .load image hES hn hl
    · exact .control (keepsStore_hostStart s.takeTurn)
    · exact .control (keepsStore_hostStop s.takeTurn)
    · exact .reset hES hn
    · exact .control rfl
    · exact .poke a v hES hn
    · exact .control rfl

/-- Settles O28: of the five effects only RESET and a successful LOAD write the five registers, both by Reset(). -/
theorem registerFileWrittenOnlyByReset : Obligations.RegisterFileWrittenOnlyByReset := by
  intro s t h
  cases step_effect h with
  | control keeps => rw [keeps]; exact .inl ⟨rfl, rfl, rfl, rfl, rfl⟩
  | fetch _ ht => rw [ht]; exact .inl ⟨rfl, rfl, rfl, rfl, rfl⟩
  | reset hES hn => exact .inr ⟨hES, .inl hn, doReset_resetRegisters s.takeTurn⟩
  | load image hES hn hl => exact .inr ⟨hES, .inr ⟨image, hn, hl⟩, loadMapped_resetRegisters image s.takeTurn⟩
  | poke => exact .inl ⟨rfl, rfl, rfl, rfl, rfl⟩

/-- Settles O29: a fetch adds 1 to `PC`, Reset() loads it from the memory it leaves, nothing else writes it. -/
theorem programCounterWrittenOnlyByFetchAndReset : Obligations.ProgramCounterWrittenOnlyByFetchAndReset := by
  intro s t h
  cases step_effect h with
  | control keeps => exact .inl (by rw [keeps])
  | fetch hn ht => exact .inr (.inl ⟨hn, by rw [ht]⟩)
  | reset hES hn =>
    refine .inr (.inr ⟨hES, .inl hn, ?_⟩)
    rw [reply_PC, reply_MEM, doReset_MEM, doReset_PC_toNat]
  | load image hES hn hl =>
    refine .inr (.inr ⟨hES, .inr ⟨image, hn, hl⟩, ?_⟩)
    rw [loadMapped, reply_PC, reply_MEM, doReset_MEM, doReset_PC_toNat]
  | poke => exact .inl rfl

/-- A write is seen only at its own address and that address's aliases (R33). -/
theorem memRead_memWrite_of_ne {m : Memory} (hm : m.wf) {a b : Int} (v : Int) (h : b % 65536 ≠ a % 65536) :
    memRead (memWrite m a v) b = memRead m b := by
  unfold memRead
  rw [get_memWrite hm, if_neg fun e => h (maskAddr_inj e)]

/-- The mapper writes the two windows only (R72). -/
theorem get_mapBanks_below_windows {m : Memory} (hm : m.wf) {image : List Byte} (hl : loadable image) {j : Nat}
    (hj : j < 0x8000) : (mapBanks m image).get j = m.get j := by
  obtain ⟨_, hlen, hN⟩ := hl
  rw [get_mapBanks hm hN hlen, if_neg (by omega), if_neg (by omega)]

/-- Settles O30: of the five effects only POKE and a successful LOAD write `MEM`. -/
theorem memoryWrittenOnlyByPokeAndLoad : Obligations.MemoryWrittenOnlyByPokeAndLoad := by
  intro s t hm h
  cases step_effect h with
  | control keeps => exact .inl (by rw [keeps])
  | fetch _ ht => exact .inl (by rw [ht])
  | reset => exact .inl (doReset_MEM Config.hardware s.takeTurn)
  | load image hES hn hl =>
    refine .inr (.inr ⟨hES, image, hn, hl, fun j hj => ?_⟩)
    rw [loadMapped, reply_MEM, doReset_MEM]
    exact get_mapBanks_below_windows hm hl hj
  | poke a v hES hn => exact .inr (.inl ⟨hES, a, v, hn, fun b hb => memRead_memWrite_of_ne hm v hb⟩)

/-- `LOADED` is kept by every step but a successful LOAD, which sets it (R18). -/
theorem step_LOADED {s t : State} (h : step s = .next t) :
    t.LOADED = s.LOADED ∨
    (t.LOADED = true ∧ s.ES = .stopped ∧ ∃ image, hostNext s (.load (some image)) ∧ loadable image) := by
  cases step_effect h with
  | control keeps => exact .inl (by rw [keeps])
  | fetch _ ht => exact .inl (by rw [ht])
  | reset => rw [doReset_eq]; exact .inl rfl
  | load image hES hn hl => rw [loadMapped_eq]; exact .inr ⟨rfl, hES, image, hn, hl⟩
  | poke => exact .inl rfl

/-! ## What a transition writes of the control bits -/

/-- What a transition from `s` to `t` can do to `ES` and `CANCEL`. -/
inductive ControlEffect (s t : State) : Prop where
  | keeps (hES : t.ES = s.ES) (hC : t.CANCEL = s.CANCEL)
  /-- The end of a run: an observed stop request, or HLT (R122, R127). -/
  | endsRun (hs : s.ES = .running) (ht : t.ES = .stopped) (hC : t.CANCEL = s.CANCEL)
      (cause : s.CANCEL = true ∨ (engineNext s ∧ s.MEM.get s.PC.toNat = 0x00))
  /-- A START that takes effect (R106). -/
  | starts (hn : hostNext s .start) (hs : s.ES = .stopped) (hL : s.LOADED = true) (ht : t.ES = .running)
      (hC : t.CANCEL = false)
  /-- A STOP while Running (R108). -/
  | requestsStop (hn : hostNext s .stop) (hs : s.ES = .running) (ht : t.ES = .running) (hC : t.CANCEL = true)

theorem start_controlEffect {s : State} (hn : hostNext s .start) : ControlEffect s (hostStart s.takeTurn) := by
  rcases hostStart_cases s.takeTurn with ⟨_, e⟩ | ⟨_, _, e⟩ | ⟨hES, hL, e⟩ <;> rw [e]
  · exact .keeps rfl rfl
  · exact .keeps rfl rfl
  · exact .starts hn hES hL rfl rfl

theorem stop_controlEffect {s : State} (hn : hostNext s .stop) : ControlEffect s (hostStop s.takeTurn) := by
  rcases hostStop_cases s.takeTurn with ⟨_, e⟩ | ⟨hES, e⟩ <;> rw [e]
  · exact .keeps rfl rfl
  · exact .requestsStop hn hES hES rfl

/-- A step has one of these effects on the control bits and no other. -/
theorem step_controlEffect {s t : State} (h : step s = .next t) : ControlEffect s t := by
  rcases step_next h with ⟨hES, hc, rfl⟩ | ⟨hn, hb, rfl⟩ | ⟨_, _, rfl⟩ | ⟨_, rfl⟩ | ⟨op, hn, hop⟩
  · exact .endsRun hES rfl rfl (.inl hc)
  · exact .endsRun hn.1 rfl rfl (.inr ⟨hn, hb⟩)
  · exact .keeps rfl rfl
  · exact .keeps rfl rfl
  · rcases hostStep_next hop with ⟨_, _, _, rfl, _, rfl⟩ | ⟨_, _, rfl, _, rfl⟩ | ⟨rfl, rfl⟩ | ⟨rfl, rfl⟩ |
      ⟨_, rfl, rfl⟩ | ⟨_, rfl, rfl⟩ | ⟨_, _, _, rfl, rfl⟩ | ⟨rfl, rfl⟩
    · exact .keeps rfl rfl
    · rw [loadMapped_eq]; exact .keeps rfl rfl
    · exact start_controlEffect hn
    · exact stop_controlEffect hn
    · rw [doReset_eq]; exact .keeps rfl rfl
    · exact .keeps rfl rfl
    · exact .keeps rfl rfl
    · exact .keeps rfl rfl

/-- The ENGINE's next step on a 0x00 byte is HLT, whatever the agenda holds after it (R90). -/
theorem step_halts {s : State} (hn : engineNext s) (hb : s.MEM.get s.PC.toNat = 0x00) :
    step s = .next (endRun (some (.halted (s.PC + 1))) { s.takeTurn with PC := s.PC + 1 }) := by
  have ⟨_, hc, _⟩ := hn
  rw [step_engineNext hn, engineStep_fetches (s := s.takeTurn) hc, takeTurn_MEM, takeTurn_PC, hb,
    decodeByte_zero, exec_hlt]
  rfl

/-- Both causes of R122 end the run. -/
theorem step_endsRun {s t : State} (h : step s = .next t) (hs : s.ES = .running)
    (cause : s.CANCEL = true ∨ (engineNext s ∧ s.MEM.get s.PC.toNat = 0x00)) : t.ES = .stopped := by
  rcases cause with hc | ⟨hn, hb⟩
  · rw [step_stopPending hs hc] at h; cases h; rfl
  · rw [step_halts hn hb] at h; cases h; rfl

/-- Settles O26, by the four effects a step can have on `ES`. -/
theorem executionStateChangesOnlyAsListed : Obligations.ExecutionStateChangesOnlyAsListed := by
  intro s t h
  refine ⟨fun hs ht => ?_, step_endsRun h, fun hs ht => ?_⟩
  · cases step_controlEffect h with
    | endsRun _ _ _ cause => exact cause
    | keeps | starts | requestsStop => simp_all
  · cases step_controlEffect h with
    | starts hn _ hL => exact ⟨hn, hL⟩
    | keeps | endsRun | requestsStop => simp_all

/-- Settles O33, by what a step can do to `LOADED` and to `CANCEL`. -/
theorem loadedAndCancelChangeOnlyAsListed : Obligations.LoadedAndCancelChangeOnlyAsListed := by
  intro s t h
  refine ⟨fun hs => ?_, fun hs ht => ?_, fun hs ht => ?_, fun hs ht => ?_⟩
  · rcases step_LOADED h with e | ⟨e, _⟩
    · exact e.trans hs
    · exact e
  · rcases step_LOADED h with e | ⟨_, hES, hload⟩
    · simp_all
    · exact ⟨hES, hload⟩
  · cases step_controlEffect h with
    | requestsStop hn hES => exact ⟨hES, hn⟩
    | keeps | endsRun | starts => simp_all
  · cases step_controlEffect h with
    | starts hn hES hL => exact ⟨hES, hL, hn⟩
    | keeps | endsRun | requestsStop => simp_all

/-! ## What a transition appends to `STATUS` -/

/-- `t.STATUS` is `s.STATUS`, or has one event more, which is no RunFailed. -/
def StatusGrows (s t : State) : Prop :=
  t.STATUS = s.STATUS ∨ ∃ e, e ≠ .runFailed ∧ t.STATUS = s.STATUS ++ [e]

theorem statusGrows_hostStart (s : State) : StatusGrows s (hostStart s) := by
  rcases hostStart_cases s with ⟨_, e⟩ | ⟨_, _, e⟩ | ⟨_, _, e⟩ <;> rw [e]
  · exact .inr ⟨.startIgnored _, nofun, rfl⟩
  · exact .inr ⟨.startIgnored _, nofun, rfl⟩
  · exact .inl rfl

theorem statusGrows_hostStop (s : State) : StatusGrows s (hostStop s) := by
  rcases hostStop_cases s with ⟨_, e⟩ | ⟨_, e⟩ <;> rw [e]
  · exact .inr ⟨.stopIgnored, nofun, rfl⟩
  · exact .inl rfl

theorem step_statusGrows {s t : State} (h : step s = .next t) : StatusGrows s t := by
  rcases step_next h with ⟨_, _, rfl⟩ | ⟨_, _, rfl⟩ | ⟨_, _, rfl⟩ | ⟨_, rfl⟩ | ⟨op, _, hop⟩
  · exact .inl rfl
  · exact .inr ⟨.halted _, nofun, rfl⟩
  · exact .inl rfl
  · exact .inl rfl
  · rcases hostStep_next hop with ⟨_, _, _, rfl, _, rfl⟩ | ⟨_, _, rfl, _, rfl⟩ | ⟨rfl, rfl⟩ | ⟨rfl, rfl⟩ |
      ⟨_, rfl, rfl⟩ | ⟨_, rfl, rfl⟩ | ⟨_, _, _, rfl, rfl⟩ | ⟨rfl, rfl⟩
    · exact .inr ⟨.loadFailed _, nofun, rfl⟩
    · rw [loadMapped_eq]; exact .inr ⟨.resetDone _ _, nofun, rfl⟩
    · exact statusGrows_hostStart s.takeTurn
    · exact statusGrows_hostStop s.takeTurn
    · rw [doReset_eq]; exact .inr ⟨.resetDone _ _, nofun, rfl⟩
    · exact .inl rfl
    · exact .inl rfl
    · exact .inl rfl

/-- Settles O32: the events appended are none, or the one of `step_statusGrows`. -/
theorem statusIsAppendOnly : Obligations.StatusIsAppendOnly := by
  intro s t h
  rcases step_statusGrows h with hs | ⟨e, he, hs⟩
  · exact ⟨[], by simp [hs]⟩
  · exact ⟨[e], hs, Nat.le_refl 1, by simpa using he.symm⟩

/-! ## The power-on registers (R22, R140) -/

/-- The state with other values in the five registers that power-on leaves open (R22). -/
def State.withOpenRegisters (s : State) (a x y p : Byte) (pc : Addr) : State :=
  { s with A := a, X := x, Y := y, P := p, PC := pc }

/-- `s'` is `s`, or differs from it in the open registers only, no LOAD having succeeded in either. -/
inductive AlikeUntilLoad (s : State) : State → Prop where
  | same : AlikeUntilLoad s s
  | unloaded (a x y p : Byte) (pc : Addr) (hL : s.LOADED = false) (hES : s.ES = .stopped) :
      AlikeUntilLoad s (s.withOpenRegisters a x y p pc)

/-- A LOAD in two Stopped states fails alike or succeeds alike: only the image decides (R80). -/
theorem hostLoad_alike {cfg : Config.Params} {image : Option (List Byte)} {s s' t : State}
    (hES : s'.ES = .stopped) (h : hostLoad cfg image s = .next t) :
    (∃ kind, t = loadFail kind s ∧ hostLoad cfg image s' = .next (loadFail kind s')) ∨
    (∃ bytes, t = loadMapped cfg bytes s ∧ hostLoad cfg image s' = .next (loadMapped cfg bytes s')) := by
  rcases hostLoad_cases cfg image s with ⟨_, e⟩ | ⟨_, rfl, e⟩ | ⟨bytes, kind, _, rfl, he, e⟩ |
    ⟨_, _, _, _, _, e⟩ | ⟨bytes, _, rfl, he, hN, e⟩ <;> rw [e] at h <;> cases h
  · exact .inl ⟨.ioError, rfl, by simp [hostLoad, hES]⟩
  · exact .inl ⟨kind, rfl, by simp [hostLoad, hES, he]⟩
  · exact .inr ⟨bytes, rfl, by simp [hostLoad, hES, he, hN]⟩

/-- POKE while Stopped is the write and the return (R113). -/
theorem hostPoke_stopped {s : State} (hES : s.ES = .stopped) (addr v : Int) :
    hostPoke addr v s = .next ({ s with MEM := memWrite s.MEM addr v }.reply .pokeReturned) := by
  simp [hostPoke, hES]

/-- A successful LOAD overwrites all five open registers (R74). -/
theorem loadMapped_withOpenRegisters (cfg : Config.Params) (image : List Byte) (s : State) (a x y p : Byte)
    (pc : Addr) : loadMapped cfg image (s.withOpenRegisters a x y p pc) = loadMapped cfg image s := by
  rw [loadMapped_eq, loadMapped_eq]; rfl

/-- Reset() overwrites all five open registers (R142). -/
theorem doReset_withOpenRegisters (cfg : Config.Params) (s : State) (a x y p : Byte) (pc : Addr) :
    doReset cfg (s.withOpenRegisters a x y p pc) = doReset cfg s := by
  rw [doReset_eq, doReset_eq]; rfl

/-- Before the first successful LOAD no HOST operation but INSPECT reads an open register. -/
theorem hostStep_alike {op : HostOp} {s t : State} (a x y p : Byte) (pc : Addr) (hL : s.LOADED = false)
    (hES : s.ES = .stopped) (hop : op ≠ .inspect) (h : hostStep Config.hardware op s = .next t) :
    ∃ t', hostStep Config.hardware op (s.withOpenRegisters a x y p pc) = .next t' ∧ AlikeUntilLoad t t' := by
  have hES' : (s.withOpenRegisters a x y p pc).ES = .stopped := hES
  have hL' : (s.withOpenRegisters a x y p pc).LOADED = false := hL
  cases op with
  | load image =>
    rcases hostLoad_alike hES' h with ⟨kind, rfl, e⟩ | ⟨bytes, rfl, e⟩
    · exact ⟨_, e, .unloaded a x y p pc hL hES⟩
    · rw [loadMapped_withOpenRegisters] at e; exact ⟨_, e, .same⟩
  | start =>
    cases h
    refine ⟨_, rfl, ?_⟩
    simp only [hostStart, hES, hES', hL, hL']
    exact .unloaded a x y p pc hL hES
  | stop =>
    cases h
    refine ⟨_, rfl, ?_⟩
    simp only [hostStop, hES, hES']
    exact .unloaded a x y p pc hL hES
  | reset =>
    rw [hostStep, hostReset_stopped _ hES] at h
    cases h
    exact ⟨_, hostReset_stopped _ hES', by rw [doReset_withOpenRegisters]; exact .same⟩
  | peek addr => cases h; exact ⟨_, rfl, .unloaded a x y p pc hL hES⟩
  | poke addr v =>
    rw [hostStep, hostPoke_stopped hES] at h
    cases h
    exact ⟨_, hostPoke_stopped hES' addr v, .unloaded a x y p pc hL hES⟩
  | inspect => exact absurd rfl hop

/-- One step from states that are alike, unless it is an INSPECT before the first successful LOAD. -/
theorem step_alike {s s' t : State} (hs : AlikeUntilLoad s s') (hins : hostNext s .inspect → s.LOADED = true)
    (h : step s = .next t) : ∃ t', step s' = .next t' ∧ AlikeUntilLoad t t' := by
  cases hs with
  | same => exact ⟨t, h, .same⟩
  | unloaded a x y p pc hL hES =>
    rcases turn_cases s with ⟨hrun, _⟩ | ⟨op, hn⟩ | ⟨hrun, _⟩ | ⟨_, hidle⟩
    · simp [hES] at hrun
    · have hop : op ≠ .inspect := by rintro rfl; simp [hins hn] at hL
      have hn' : hostNext (s.withOpenRegisters a x y p pc) op := hn
      rw [step_hostNext hn] at h
      rw [step_hostNext hn']
      exact hostStep_alike (s := s.takeTurn) a x y p pc hL hES hop h
    · simp [hES] at hrun
    · rw [step_idle hES hidle] at h
      cases h
      exact ⟨_, step_idle hES hidle, .unloaded a x y p pc hL hES⟩

/-- States that are alike run alike, where every INSPECT performed comes after a successful LOAD. -/
theorem run_alike {k : Nat} {s s' t : State} (hs : AlikeUntilLoad s s')
    (hins : ∀ (j : Nat) (u : State), j < k → run j s = .next u → hostNext u .inspect → u.LOADED = true)
    (h : run k s = .next t) : ∃ t', run k s' = .next t' ∧ AlikeUntilLoad t t' := by
  induction k generalizing s s' with
  | zero => cases h; exact ⟨s', rfl, hs⟩
  | succ k ih =>
    obtain ⟨u, hu, hk⟩ := run_succ_next h
    obtain ⟨u', hu', huu'⟩ := step_alike hs (hins 0 s k.succ_pos rfl) hu
    have hins' (j : Nat) (w : State) (hj : j < k) (hw : run j u = .next w) :=
      hins (j + 1) w (Nat.succ_lt_succ hj) ((run_succ_of_step hu j).trans hw)
    obtain ⟨t', ht', htt'⟩ := ih huu' hins' hk
    exact ⟨t', (run_succ_of_step hu' k).trans ht', htt'⟩

/-- Settles O35: the two power-on states are alike, so the two runs stay alike, and equal once a LOAD has succeeded. -/
theorem powerOnRegistersAreNeverRead : Obligations.PowerOnRegistersAreNeverRead := by
  refine ⟨fun a x y p pc => ⟨fun i => rfl, rfl, rfl, rfl, rfl, rfl⟩, ?_⟩
  intro a x y p a' x' y' p' pc pc' agenda k t hins h
  obtain ⟨t', ht', hs⟩ := run_alike (.unloaded a' x' y' p' pc' rfl rfl) hins h
  refine ⟨t', ht', ?_⟩
  cases hs with
  | same => exact ⟨rfl, fun _ => rfl⟩
  | unloaded _ _ _ _ _ hL => exact ⟨rfl, fun ht => by simp [hL] at ht⟩

end Sys2Proof.Machine
end

section
/-! PROOF. The statements about memory (20_memory.md). First the masks and the read-after-write law; then what POKE,
START and LOAD are as steps of a Stopped machine, and the two statements about a byte that was POKEd; last which
steps are refused. -/

namespace Sys2Proof.Machine

/-! ## Masks and the read-after-write law (R32, R33) -/

theorem maskAddr_toInt (a : Int) : ((maskAddr a : Nat) : Int) = a % 65536 := by
  unfold maskAddr Config.memSize; omega

theorem maskAddr_emod (a : Int) : maskAddr (a % 65536) = maskAddr a :=
  maskAddr_congr (Int.emod_emod_of_dvd a (dvd_refl _))

theorem maskByte_emod (v : Int) : maskByte (v % 256) = maskByte v := by
  apply BitVec.eq_of_toNat_eq
  have := maskByte_toNat v
  have := maskByte_toNat (v % 256)
  omega

/-- Settles O2: both masks are remainders, which a second remainder leaves as they are. -/
theorem masksAreEuclideanRemainders : Obligations.MasksAreEuclideanRemainders := by
  intro m a v
  refine ⟨maskAddr_toInt a, maskByte_toNat v, ?_, ?_, rfl, rfl⟩
  · rw [memRead, memRead, maskAddr_emod]
  · rw [memWrite, memWrite, maskAddr_emod, maskByte_emod]

/-- Every address that the mask makes the one just written reads the masked value (R33). -/
theorem memRead_memWrite_of_congr {m : Memory} (hm : m.wf) {a a' : Int} (v : Int) (h : a' % 65536 = a % 65536) :
    memRead (memWrite m a v) a' = maskByte v := by
  rw [memRead, get_memWrite hm, if_pos (maskAddr_congr h)]

/-- Settles O1: the mask makes an address the one written, or another. -/
theorem readAfterWriteReturnsMaskedValue : Obligations.ReadAfterWriteReturnsMaskedValue := by
  intro m a v hm
  refine ⟨fun a' h => ?_, fun b h => memRead_memWrite_of_ne hm v h⟩
  rw [memRead_memWrite_of_congr hm v h, maskByte_toNat]

/-! ## HOST operations as steps of a Stopped machine -/

/-- While Stopped the HOST is never blocked in a STOP (R108). -/
theorem hostNext_stopped {s : State} {op : HostOp} {rest : List Turn} (hES : s.ES = .stopped)
    (ha : s.agenda = .host op :: rest) : hostNext s op :=
  ⟨by simp [stopPending, hES], by simp [ha]⟩

/-- POKE while Stopped (R113). -/
theorem step_poke {s : State} {a v : Int} (hn : hostNext s (.poke a v)) (hES : s.ES = .stopped) :
    step s = .next ({ s.takeTurn with MEM := memWrite s.MEM a v }.reply .pokeReturned) := by
  rw [step_hostNext hn]
  exact hostPoke_stopped (s := s.takeTurn) hES a v

/-- START that takes effect (R106). -/
theorem step_start {s : State} (hn : hostNext s .start) (hES : s.ES = .stopped) (hL : s.LOADED = true) :
    step s = .next ((resumeRun s.takeTurn).reply .startReturned) := by
  rw [step_hostNext hn]
  simp [hostStep, hostStart, hES, hL]

/-- LOAD that succeeds (R68). -/
theorem step_load {s : State} {image : List Byte} (hn : hostNext s (.load (some image))) (hES : s.ES = .stopped)
    (hl : loadable image) : step s = .next (loadMapped Config.hardware image s.takeTurn) := by
  rw [step_hostNext hn]
  exact hostLoad_loadable (s := s.takeTurn) hES hl

/-- An ENGINE step that fetches runs what the byte at `PC` decodes to (R41, R87). -/
theorem step_exec {s : State} (hn : engineNext s) :
    step s = exec (decodeByte (s.MEM.get s.PC.toNat)) { s.takeTurn with PC := s.PC + 1 } := by
  have ⟨_, hc, _⟩ := hn
  rw [step_engineNext hn, engineStep_fetches (s := s.takeTurn) hc]
  rfl

/-! ## A POKEd byte is fetched (R41) -/

/-- A byte written at `PC` is the byte at `PC`. -/
theorem get_memWrite_PC {m : Memory} (hm : m.wf) (pc : Addr) (v : Int) :
    (memWrite m pc.toNat v).get pc.toNat = BitVec.ofInt 8 v := by
  have hpc := pc.isLt
  rw [get_memWrite hm, if_pos (by rw [maskAddr_natCast]; omega)]
  rfl

/-- `MEM` holds HLT exactly where the value stored was 0 modulo 256 (R31, R52). -/
theorem ofInt8_eq_zero_iff (v : Int) : BitVec.ofInt 8 v = (0x00 : Byte) ↔ v % 256 = 0 := by
  have hv : ((BitVec.ofInt 8 v).toNat : Int) = v % 256 := maskByte_toNat v
  rw [← BitVec.toNat_inj, show (0x00 : Byte).toNat = 0 from rfl]
  omega

/-- Both instructions complete; of a Running machine exactly HLT makes a Stopped one, and neither moves `PC`
(R90, R91). -/
theorem exec_decodeByte_running {s : State} (b : Byte) (hES : s.ES = .running) :
    ∃ t, exec (decodeByte b) s = .next t ∧ t.PC = s.PC ∧ (t.ES = .stopped ↔ b = 0x00) := by
  by_cases hb : b = 0x00
  · subst hb
    exact ⟨_, exec_hlt s, rfl, by simp⟩
  · rw [decodeByte_ne_zero hb]
    exact ⟨s, exec_skp b s, rfl, iff_of_false (by simp [hES]) hb⟩

/-- Settles O15: the three transitions are the POKE, the START and the fetch of the byte just written. -/
theorem pokedByteIsFetched : Obligations.PokedByteIsFetched := by
  intro s v rest hm hES hL ha
  have h1 := step_poke (hostNext_stopped hES ha) hES
  set p := { s.takeTurn with MEM := memWrite s.MEM s.PC.toNat v }.reply .pokeReturned with hp
  have hap : p.agenda = .host .start :: .engine :: rest := by simp [hp, ha]
  have h2 := step_start (hostNext_stopped (s := p) hES hap) hES hL
  set u := (resumeRun p.takeTurn).reply .startReturned with hu
  have hau : u.agenda = .engine :: rest := by simp [hu, hap]
  have hbyte : u.MEM.get u.PC.toNat = BitVec.ofInt 8 v := get_memWrite_PC hm s.PC v
  have hrun : run 2 s = .next u := by rw [run_succ_of_step h1, run_succ_of_step h2, run_zero]
  have h3 := step_exec (s := u) ⟨rfl, rfl, by simp [hau]⟩
  rw [hbyte] at h3
  obtain ⟨t, ht, hPC, hstop⟩ :=
    exec_decodeByte_running (s := { u.takeTurn with PC := u.PC + 1 }) (BitVec.ofInt 8 v) rfl
  refine ⟨u, t, hrun, rfl, rfl, by rw [fetch_eq, hbyte], ?_, hPC, hstop.trans (ofInt8_eq_zero_iff v), ?_⟩
  · rw [run_snoc hrun, h3, ht]
  · rw [← ht, State.takeTurn, hau, List.tail_cons]

/-! ## Mirroring is a copy (R46, R78) -/

/-- A one-bank image leaves both windows alike (R72, R77). -/
theorem get_mapBanks_mirror {m : Memory} (hm : m.wf) {image : List Byte} (hl : loadable image)
    (h1 : declaredBanks image = 1) {i : Nat} (hi : i < 16384) :
    (mapBanks m image).get (0xC000 + i) = (mapBanks m image).get (0x8000 + i) := by
  obtain ⟨_, hlen, hN⟩ := hl
  have hw : window1Bank image = bank image 1 := if_pos h1
  rw [get_mapBanks hm hN hlen, get_mapBanks hm hN hlen, if_pos (by omega), if_neg (by omega),
    if_pos (by omega), hw, Nat.add_sub_cancel_left, Nat.add_sub_cancel_left]

/-- Settles O47: the LOAD leaves the windows alike, and the POKE writes one address of window 0 only. -/
theorem mirrorIsACopy : Obligations.MirrorIsACopy := by
  intro s image i v hm hES hl hN hi
  set s₀ := { s with agenda := [.host (.load (some image)), .host (.poke (0x8000 + i) v)] }
  have h1 := step_load (s := s₀) (hostNext_stopped hES rfl) hES hl
  set t := loadMapped Config.hardware image s₀.takeTurn with ht
  have htMEM : t.MEM = mapBanks s.MEM image := by rw [ht, loadMapped_eq]; rfl
  have htES : t.ES = .stopped := by rw [ht, loadMapped_eq]; exact hES
  have hta : t.agenda = [.host (.poke (0x8000 + i) v)] := by rw [ht, loadMapped_eq]; rfl
  have h2 := step_poke (hostNext_stopped htES hta) htES
  have hwf : t.MEM.wf := htMEM ▸ mapBanks_wf hm image
  have haddr : maskAddr (0x8000 + (i : Int)) = 0x8000 + i := by
    have := maskAddr_toInt (0x8000 + (i : Int)); omega
  refine ⟨t, _, run_succ_of_step h1 0, (run_succ_of_step h1 1).trans (run_succ_of_step h2 0), ?_, ?_, ?_⟩
  · rw [htMEM, get_mapBanks_mirror hm hl hN hi]
  · rw [reply_MEM, get_memWrite hwf, haddr, if_pos rfl]; rfl
  · rw [reply_MEM, get_memWrite hwf, haddr, if_neg (by omega)]

/-! ## Which steps are refused (R73, R117, R148) -/

/-- A LOAD while Stopped completes, unless its image passes the checks with bank count 0 (R68, R73). -/
theorem hostLoad_completes {cfg : Config.Params} {image : Option (List Byte)} {s : State} (hES : s.ES = .stopped)
    (hN : ∀ bytes, image = some bytes →
      ¬ (passesFormat bytes ∧ passesLength bytes ∧ declaredBanks bytes = 0)) :
    ∃ t, hostLoad cfg image s = .next t := by
  rcases hostLoad_cases cfg image s with ⟨hrun, _⟩ | ⟨_, _, e⟩ | ⟨_, _, _, _, _, e⟩ | ⟨bytes, _, hi, he, h0, _⟩ |
    ⟨_, _, _, _, _, e⟩
  · simp [hES] at hrun
  · exact ⟨_, e⟩
  · exact ⟨_, e⟩
  · obtain ⟨hf, hl⟩ := (loadError_none bytes).1 he
    exact absurd ⟨(formatOk_iff bytes).1 hf, hl, h0⟩ (hN bytes hi)
  · exact ⟨_, e⟩

/-- A LOAD of bank count 0 is refused (R73). -/
theorem hostLoad_bankCountZero {cfg : Config.Params} {image : List Byte} {s : State} (hES : s.ES = .stopped)
    (hf : passesFormat image) (hl : passesLength image) (hN : declaredBanks image = 0) :
    hostLoad cfg (some image) s = .refused .loadBankCountZero := by
  have he : loadError image = none := (loadError_none image).2 ⟨(formatOk_iff image).2 hf, hl⟩
  simp [hostLoad, hES, he, bankCount_eq, hN]

/-- A HOST operation that keeps to the HOST's duty completes, but for a LOAD of bank count 0 (R117). -/
theorem hostStep_completes {cfg : Config.Params} {op : HostOp} {s : State} (hd : op.disciplined s = true)
    (hN : ∀ image, op = .load (some image) →
      ¬ (passesFormat image ∧ passesLength image ∧ declaredBanks image = 0)) :
    ∃ t, hostStep cfg op s = .next t := by
  cases op with
  | load image => exact hostLoad_completes (of_decide_eq_true hd) fun bytes h => hN bytes (by rw [h])
  | reset => exact ⟨_, hostReset_stopped cfg (of_decide_eq_true hd)⟩
  | poke a v => exact ⟨_, hostPoke_stopped (of_decide_eq_true hd) a v⟩
  | start | stop | peek | inspect => exact ⟨_, rfl⟩

/-- A transition that is not the HOST's completes (R87, R108). -/
theorem step_completes_of_not_hostNext {s : State} (h : ∀ op, ¬ hostNext s op) : ∃ t, step s = .next t := by
  rcases turn_cases s with ⟨hES, hc⟩ | ⟨op, hn⟩ | hn | ⟨hES, ha⟩
  · exact ⟨_, step_stopPending hES hc⟩
  · exact absurd hn (h op)
  · rw [step_engineNext hn]
    rcases engineStep_cases s.takeTurn with ⟨_, e⟩ | ⟨_, _, e⟩ | ⟨_, _, e⟩ <;> exact ⟨_, e⟩
  · exact ⟨_, step_idle hES ha⟩

/-- Settles O36: which steps complete, by whose turn it is; then the four refusals. -/
theorem stepsCompleteUnlessTheHostViolatesItsDuty : Obligations.StepsCompleteUnlessTheHostViolatesItsDuty := by
  intro s
  refine ⟨fun op hn hd hN => ?_, step_completes_of_not_hostNext, fun image hn hES => ?_, fun hn hES => ?_,
    fun a v hn hES => ?_, fun image hn hES hf hl hN => ?_⟩ <;> rw [step_hostNext hn]
  · exact hostStep_completes (s := s.takeTurn) hd hN
  · exact if_pos hES
  · exact if_pos hES
  · exact if_pos hES
  · exact hostLoad_bankCountZero (s := s.takeTurn) hES hf hl hN

end Sys2Proof.Machine
end

section
/-! PROOF. The statements about the encoding (30_encoding.md). First the stream functions as maps over their
one-byte parts; then one byte and its decoding; then the opcode table, whose SKP row for bit `i` is selected by
the bytes whose leading one is bit `i`. -/

namespace Sys2Proof.Machine

/-! ## Instruction streams (R50, R53) -/

theorem decodeStream_eq_map (bs : List Byte) : decodeStream bs = bs.map decodeByte := by
  induction bs with
  | nil => rfl
  | cons b bs ih => rw [decodeStream, ih, List.map_cons]

theorem encodeStream_eq_map (is : List Instr) : encodeStream is = is.map encodeByte := by
  induction is with
  | nil => rfl
  | cons i is ih => rw [encodeStream, ih, encode, List.singleton_append, List.map_cons]

theorem decodeStream_encodeStream {is : List Instr} (h : ∀ i ∈ is, i.wellFormed = true) :
    decodeStream (encodeStream is) = is := by
  rw [encodeStream_eq_map, decodeStream_eq_map, List.map_map]
  calc is.map (decodeByte ∘ encodeByte)
    _ = is.map id := List.map_congr_left fun i hi => decodeByte_encodeByte (h i hi)
    _ = is := List.map_id is

theorem encodeStream_decodeStream (bs : List Byte) : encodeStream (decodeStream bs) = bs := by
  rw [decodeStream_eq_map, encodeStream_eq_map, List.map_map]
  exact List.map_id'' encodeByte_decodeByte bs

theorem length_decodeStream (bs : List Byte) : (decodeStream bs).length = bs.length := by
  rw [decodeStream_eq_map, List.length_map]

theorem decodeStream_wellFormed (bs : List Byte) : ∀ i ∈ decodeStream bs, i.wellFormed = true := by
  rw [decodeStream_eq_map, List.forall_mem_map]
  exact fun b _ => decodeByte_wellFormed b

/-- Settles O19: both streams are maps, and the one-byte decoder and encoder are inverse to each other. -/
theorem streamsRoundTrip : Obligations.StreamsRoundTrip :=
  ⟨fun _ h => decodeStream_encodeStream h,
    fun bs => ⟨encodeStream_decodeStream bs, length_decodeStream bs, decodeStream_wellFormed bs⟩⟩

/-! ## One byte (R51, R52) -/

theorem decode_zero_cons (rest : List Byte) : decode (0x00 :: rest) = .ok (.hlt, rest) := by
  rw [decode_cons, decodeByte_zero]

theorem decode_cons_of_ne_zero {b : Byte} (h : b ≠ 0x00) (rest : List Byte) :
    decode (b :: rest) = .ok (.skp b, rest) := by
  rw [decode_cons, decodeByte_ne_zero h]

theorem decodeTableWord_eq (nbits w : Nat) :
    decodeTableWord nbits w = some (decodeByte (tableByte nbits w)) := rfl

/-- Settles O16: Fetch() at `a` reads `MEM[a]`, and the decoder splits on 0x00 alone. -/
theorem everyByteDecodes : Obligations.EveryByteDecodes := by
  refine ⟨fun s a => by rw [fetch_eq], fun b rest => ⟨?_, decodeByte_wellFormed b⟩⟩
  split
  · next h => rw [h, decode_zero_cons]
  · next h => exact decode_cons_of_ne_zero h rest

/-- Settles O17: the word 0 is HLT, and each of the others is a byte other than 0x00. -/
theorem writtenOutWordsDecode : Obligations.WrittenOutWordsDecode := by
  refine ⟨decode_zero_cons [], decode_cons_of_ne_zero ?_ [], decode_cons_of_ne_zero ?_ [],
    decode_cons_of_ne_zero ?_ [], decode_cons_of_ne_zero ?_ [0x00],
    (decodeTableWord_eq 8 0).trans (congrArg some decodeByte_zero),
    (decodeTableWord_eq 8 0x40).trans (congrArg some (decodeByte_ne_zero (b := 0x40) ?_))⟩ <;> decide

/-! ## The opcode table (R52, R57) -/

/-- The HLT row of the table. -/
def haltRow : OpRow := ⟨"HLT", 0x00, 0xFF⟩

/-- The SKP row of the bytes whose leading one is bit `i`: the mask covers bit `i` and the bits above it. -/
def leadingOneRow (i : Nat) : OpRow := ⟨"SKP", BitVec.twoPow 8 i, BitVec.allOnes 8 <<< i⟩

theorem opcodeTable_eq : opcodeTable = haltRow :: [7, 6, 5, 4, 3, 2, 1, 0].map leadingOneRow := by decide

theorem haltRow_selects (b : Byte) : haltRow.selects b = (b == 0x00) := by
  have hmask : b &&& 0xFF = b := BitVec.and_allOnes
  rw [OpRow.selects, haltRow, hmask]

/-- `b &&& mask` clears the bits of `b` below bit `i`. -/
theorem toNat_and_leadingOneRow_mask (b : Byte) (i : Nat) :
    (b &&& (leadingOneRow i).mask).toNat = b.toNat / 2 ^ i * 2 ^ i := by
  have hle : b.toNat / 2 ^ i * 2 ^ i ≤ b.toNat := Nat.div_mul_le_self _ _
  rw [leadingOneRow, ← BitVec.shiftLeft_ushiftRight, BitVec.toNat_shiftLeft, BitVec.toNat_ushiftRight,
    Nat.shiftLeft_eq, Nat.shiftRight_eq_div_pow, Nat.mod_eq_of_lt (hle.trans_lt b.isLt)]

/-- A byte other than 0x00 selects the row of its leading one. -/
theorem leadingOneRow_selects {b : Byte} (hb : b ≠ 0x00) {i : Nat} (hi : i < 8) :
    (leadingOneRow i).selects b = (i == b.toNat.log2) := by
  have hpos : 0 < 2 ^ i := Nat.two_pow_pos i
  have hb' : b.toNat ≠ 0 := BitVec.toNat_ne.1 hb
  rw [Bool.eq_iff_iff, OpRow.selects, beq_iff_eq, beq_iff_eq]
  calc b &&& (leadingOneRow i).mask = BitVec.twoPow 8 i
    _ ↔ b.toNat / 2 ^ i * 2 ^ i = 1 * 2 ^ i := by
      rw [← BitVec.toNat_inj, toNat_and_leadingOneRow_mask, BitVec.toNat_twoPow_of_lt hi, Nat.one_mul]
    _ ↔ b.toNat / 2 ^ i = 1 := Nat.mul_left_inj hpos.ne'
    _ ↔ b.toNat.log2 = i := by rw [Nat.div_eq_iff hpos, Nat.log2_eq_iff hb', Nat.pow_succ]; omega
    _ ↔ i = b.toNat.log2 := eq_comm

/-- 0x00 selects the HLT row alone. -/
theorem opcodeTable_filter_zero : opcodeTable.filter (fun r => r.selects 0x00) = [haltRow] := by decide

/-- Every other byte selects the row of its leading one alone. -/
theorem opcodeTable_filter_of_ne_zero {b : Byte} (hb : b ≠ 0x00) :
    opcodeTable.filter (fun r => r.selects b) = [leadingOneRow b.toNat.log2] := by
  set bits := [7, 6, 5, 4, 3, 2, 1, 0] with hbits
  have hlog : b.toNat.log2 < 8 := (Nat.log2_lt (BitVec.toNat_ne.1 hb)).2 b.isLt
  have hmem : b.toNat.log2 ∈ bits := by simp [hbits]; omega
  have hlt : ∀ i ∈ bits, i < 8 := by decide
  have hfilter : bits.filter (fun i => (leadingOneRow i).selects b) = [b.toNat.log2] :=
    calc bits.filter (fun i => (leadingOneRow i).selects b)
      _ = bits.filter (· == b.toNat.log2) :=
        List.filter_congr fun i hi => leadingOneRow_selects hb (hlt i hi)
      _ = [b.toNat.log2] := by
        rw [List.filter_beq, List.count_eq_one_of_mem (by decide) hmem, List.replicate_one]
  have hhalt : haltRow.selects b = false := by rw [haltRow_selects]; exact beq_false_of_ne hb
  rw [opcodeTable_eq, List.filter_cons_of_neg (by rw [hhalt]; decide), List.filter_map]
  exact congrArg (List.map leadingOneRow) hfilter

/-- Settles O18: 0x00 selects the HLT row, and every other byte the SKP row of its leading one. -/
theorem opcodeTableSelectsTheDecodedInstruction : Obligations.OpcodeTableSelectsTheDecodedInstruction := by
  refine ⟨rfl, fun b => ?_⟩
  by_cases hb : b = 0x00
  · rw [hb, opcodeTable_filter_zero, decodeByte_zero]; rfl
  · rw [opcodeTable_filter_of_ne_zero hb, decodeByte_ne_zero hb]; rfl

end Sys2Proof.Machine
end

section
/-! PROOF. The statements about the cartridge mapper (40_cartridge_mapper.md). First the order of a block copy;
then the failures of a LOAD; then what a loadable image puts in the two windows and in `PC`; then images given by
their parts, header and PRG data; last the statements about two images. -/

namespace Sys2Proof.Machine

/-! ## The order of a block copy (R68, R72) -/

/-- A write below a block commutes with the copy of the block. -/
theorem writeBlock_memWrite {m : Memory} (hm : m.wf) {a base : Nat} (v : Int) {bytes : List Byte} (ha : a < base)
    (hb : base + bytes.length ≤ 65536) :
    writeBlock (memWrite m a v) base bytes = memWrite (writeBlock m base bytes) a v := by
  refine Memory.eq_of_get_eq (writeBlock_wf (memWrite_wf hm _ _) _ _) (memWrite_wf (writeBlock_wf hm _ _) _ _)
    fun j => ?_
  rw [get_writeBlock (memWrite_wf hm _ _) base bytes hb, get_memWrite hm, get_memWrite (writeBlock_wf hm _ _),
    get_writeBlock hm base bytes hb, maskAddr_natCast]
  by_cases hj : base ≤ j ∧ j < base + bytes.length
  · rw [if_pos hj, if_pos hj, if_neg (by omega)]
  · rw [if_neg hj, if_neg hj]

/-- Settles O6, by induction on the block: the first byte, written first, commutes with the rest of the copy. -/
theorem blockCopyOrderIsUnobservable : Obligations.BlockCopyOrderIsUnobservable := by
  intro m base bytes hm hb
  induction bytes generalizing m base with
  | nil => rfl
  | cons b rest ih =>
    rw [List.length_cons] at hb
    have hrest : base + 1 + rest.length ≤ 65536 := by omega
    calc copyAscending (memWrite m base b.toNat) ((base + 1 : Nat) : Int) rest
      _ = writeBlock (memWrite m base b.toNat) ((base + 1 : Nat) : Int) rest :=
        ih _ _ (memWrite_wf hm _ _) hrest
      _ = memWrite (writeBlock m ((base + 1 : Nat) : Int) rest) base b.toNat :=
        writeBlock_memWrite hm _ (Nat.lt_succ_self base) hrest

/-! ## Failures (R69 to R71, R75, R80) -/

/-- A LOAD with no image to present (R71). -/
theorem hostLoad_none (cfg : Config.Params) {s : State} (hES : s.ES = .stopped) :
    hostLoad cfg none s = .next (loadFail .ioError s) := by
  simp [hostLoad, hES]

/-- A LOAD whose image the checks reject (R69, R70). -/
theorem hostLoad_of_loadError (cfg : Config.Params) {image : List Byte} {kind : ErrorKind} {s : State}
    (hES : s.ES = .stopped) (he : loadError image = some kind) :
    hostLoad cfg (some image) s = .next (loadFail kind s) := by
  simp [hostLoad, hES, he]

/-- Settles O41: `loadError_eq` gives the order of the checks. -/
theorem loadFailuresChangeOnlyStatus : Obligations.LoadFailuresChangeOnlyStatus := by
  intro s hES
  refine ⟨fun hn => ?_, fun image hn hf => ?_, fun image hn hf hl => ?_⟩ <;> rw [step_hostNext hn]
  · exact hostLoad_none Config.hardware (s := s.takeTurn) hES
  · have he : loadError image = some .formatError := by rw [loadError_eq, if_pos hf]
    exact hostLoad_of_loadError Config.hardware (s := s.takeTurn) hES he
  · have he : loadError image = some .truncatedError := by
      rw [loadError_eq, if_neg (not_not.2 hf), if_pos hl]
    exact hostLoad_of_loadError Config.hardware (s := s.takeTurn) hES he

/-! ## What a successful LOAD leaves (R72, R74, R77) -/

theorem loadMapped_MEM (cfg : Config.Params) (image : List Byte) (s : State) :
    (loadMapped cfg image s).MEM = mapBanks s.MEM image := by rw [loadMapped_eq]

/-- The little-endian vector as R83 writes it. -/
theorem resetVector_eq_or (m : Memory) :
    resetVector m = ((m.get 0xFFFD).toNat <<< 8 ||| (m.get 0xFFFC).toNat) := rfl

/-- The entry point is the vector of the memory just mapped (R74, R83). -/
theorem loadMapped_PC_toNat (cfg : Config.Params) (image : List Byte) (s : State) :
    (loadMapped cfg image s).PC.toNat =
      (((mapBanks s.MEM image).get 0xFFFD).toNat <<< 8 ||| ((mapBanks s.MEM image).get 0xFFFC).toNat) := by
  rw [loadMapped_eq, ← resetVector_eq_or]
  exact Nat.mod_eq_of_lt (resetVector_lt _)

theorem getElem?_eq_imageByte {image : List Byte} {i : Nat} (hi : i < image.length) :
    image[i]? = some (imageByte image i) := by
  rw [imageByte, List.getD_eq_getElem?_getD, List.getElem?_eq_getElem hi, Option.getD_some]

/-- Window 0 holds bank 1 (R72). -/
theorem getElem?_window0 {m : Memory} (hm : m.wf) {image : List Byte} (hl : loadable image) {i : Nat}
    (hi : i < 16384) : image[16 + i]? = some ((mapBanks m image).get (0x8000 + i)) := by
  obtain ⟨_, hlen, hN⟩ := hl
  have h16 : 16 + i < image.length := by unfold passesLength at hlen; omega
  rw [getElem?_eq_imageByte h16, get_mapBanks hm hN hlen, if_neg (by omega), if_pos (by omega),
    Nat.add_sub_cancel_left, bank_getD 1 i hi]
  rfl

/-- Window 1 holds bank 1 again when `N = 1` and bank 2 otherwise (R72, R77). -/
theorem getElem?_window1 {m : Memory} (hm : m.wf) {image : List Byte} (hl : loadable image) {i : Nat}
    (hi : i < 16384) :
    image[16 + (if declaredBanks image = 1 then 0 else 16384) + i]? =
      some ((mapBanks m image).get (0xC000 + i)) := by
  by_cases h1 : declaredBanks image = 1
  · rw [if_pos h1, get_mapBanks_mirror hm hl h1 hi]
    exact getElem?_window0 hm hl hi
  · obtain ⟨_, hlen, hN⟩ := hl
    have h16 : 16 + 16384 + i < image.length := by unfold passesLength at hlen; omega
    have hw : window1Bank image = bank image 2 := if_neg h1
    rw [if_neg h1, getElem?_eq_imageByte h16, get_mapBanks hm hN hlen, if_pos (by omega), hw,
      Nat.add_sub_cancel_left, bank_getD 2 i hi]
    rfl

/-- Settles O42: what the two windows hold, and that the mapper writes nothing else. -/
theorem loadMapsTheBanks : Obligations.LoadMapsTheBanks := by
  intro s image hm hES hn hl
  refine ⟨_, step_load hn hES hl, ?_⟩
  rw [loadMapped_MEM, takeTurn_MEM]
  refine ⟨fun i hi => getElem?_window0 hm hl hi, fun h1 i hi => ?_, fun h2 i hi => ?_,
    fun j hj => get_mapBanks_below_windows hm hl hj⟩
  · rw [← getElem?_window1 hm hl hi, if_pos h1, Nat.add_zero]
  · rw [← getElem?_window1 hm hl hi, if_neg (by omega)]

/-- Settles O44: the vector's two bytes are the ones at 0x3FFC and 0x3FFD of window 1's bank. -/
theorem loadResetsFromTheMappedVector : Obligations.LoadResetsFromTheMappedVector := by
  intro s image hm hES hn hl
  refine ⟨_, (mapBanks s.MEM image).get 0xFFFC, (mapBanks s.MEM image).get 0xFFFD, step_load hn hES hl,
    getElem?_window1 hm hl (i := 0x3FFC) (by decide), getElem?_window1 hm hl (i := 0x3FFD) (by decide),
    loadMapped_PC_toNat _ _ _, ?_⟩
  rw [loadMapped_eq]
  exact ⟨rfl, rfl, rfl, rfl, rfl, rfl, hES, rfl, rfl, rfl, rfl⟩

/-! ## Images given by their parts (R65) -/

/-- The image with bank count `n`, the header bytes after the count, and PRG data `prg` (R65). -/
def imageOf (n : Byte) (header prg : List Byte) : List Byte := [0x4E, 0x45, 0x53, 0x1A, n] ++ header ++ prg

theorem imageOf_length {n : Byte} {header prg : List Byte} (hh : header.length = 11) :
    (imageOf n header prg).length = 16 + prg.length := by
  rw [imageOf, List.length_append, List.length_append, hh]; rfl

/-- The PRG data starts after the 16 header bytes (R65). -/
theorem getElem?_imageOf {n : Byte} {header prg : List Byte} (hh : header.length = 11) (i : Nat) :
    (imageOf n header prg)[16 + i]? = prg[i]? := by
  have hlen : ([0x4E, 0x45, 0x53, 0x1A, n] ++ header).length = 16 := by rw [List.length_append, hh]; rfl
  rw [imageOf, List.getElem?_append_right (by omega), hlen, Nat.add_sub_cancel_left]

/-- An image is loadable when it holds as many banks as its count says (R69, R70, R73). -/
theorem loadable_imageOf {n : Byte} {header prg : List Byte} (hh : header.length = 11) (hn : n.toNat ≠ 0)
    (hp : n.toNat * 16384 ≤ prg.length) : loadable (imageOf n header prg) := by
  have hlen := imageOf_length (n := n) (prg := prg) hh
  refine ⟨⟨by omega, rfl⟩, ?_, hn⟩
  rw [passesLength, hlen]
  exact Nat.add_le_add_left hp 16

/-- Reading a window byte by byte gives back the bank that it holds. -/
theorem map_range_eq {B : List Byte} {f : Nat → Byte} {n : Nat} (hB : B.length = n)
    (h : ∀ i < n, B[i]? = some (f i)) : (List.range n).map f = B := by
  apply List.ext_getElem?
  intro i
  by_cases hi : i < n
  · rw [h i hi, List.getElem?_map, List.getElem?_range hi, Option.map_some]
  · rw [List.getElem?_eq_none (by simpa using hi), List.getElem?_eq_none (by omega)]

/-- Settles O43, from the windows of any image and the place of the banks in an image given by its parts. -/
theorem windowsEqualTheBanks : Obligations.WindowsEqualTheBanks := by
  refine ⟨fun s header B hm hES hh hB hn => ?_, fun s header B1 B2 hm hES hh hB1 hB2 hn => ?_⟩
  · have hl : loadable (imageOf 0x01 header B) := loadable_imageOf hh (by decide) hB.ge
    obtain ⟨t, ht, h0, h1, -, -⟩ := loadMapsTheBanks s _ hm hES hn hl
    exact ⟨t, ht, map_range_eq hB fun i hi => (getElem?_imageOf hh i).symm.trans (h0 i hi),
      map_range_eq hB fun i hi => (getElem?_imageOf hh i).symm.trans (h1 rfl i hi)⟩
  · rw [List.append_assoc] at hn
    have hlen : (B1 ++ B2).length = 32768 := by rw [List.length_append, hB1, hB2]
    have hl : loadable (imageOf 0x02 header (B1 ++ B2)) := loadable_imageOf hh (by decide) hlen.ge
    obtain ⟨t, ht, h0, -, h2, -⟩ := loadMapsTheBanks s _ hm hES hn hl
    refine ⟨t, ht, map_range_eq hB1 fun i hi => ?_, map_range_eq hB2 fun i hi => ?_⟩
    · rw [← h0 i hi, ← List.getElem?_append_left (l₂ := B2) (by omega)]
      exact (getElem?_imageOf hh i).symm
    · rw [← h2 (Nat.le_refl 2) i hi, Nat.add_assoc]
      refine Eq.trans ?_ (getElem?_imageOf hh (16384 + i)).symm
      rw [List.getElem?_append_right (by omega), hB1, Nat.add_sub_cancel_left]

/-- Settles O48: the windows of a one-bank image, and the vector bytes 00 90 in its bank. -/
theorem workedExampleImageLoads : Obligations.WorkedExampleImageLoads := by
  intro s hm hES bank image hbank himage hn
  have hh : (List.replicate 11 (0xEA : Byte)).length = 11 := List.length_replicate
  have hB : bank.length = 16384 := by rw [hbank, List.length_append, List.length_replicate]; rfl
  have hbyte (i : Nat) : bank[0x3FFC + i]? = ([0x00, 0x90, 0xEA, 0xEA] : List Byte)[i]? := by
    rw [hbank, List.getElem?_append_right (by rw [List.length_replicate]; omega), List.length_replicate,
      Nat.add_sub_cancel_left]
  replace himage : image = imageOf 0x01 (List.replicate 11 0xEA) bank := himage
  have hl : loadable image := himage ▸ loadable_imageOf hh (by decide) hB.ge
  have hN : declaredBanks image = 1 := by rw [himage]; rfl
  have h0 (i : Nat) (hi : i < 16384) : bank[i]? = some ((mapBanks s.MEM image).get (0x8000 + i)) := by
    rw [← getElem?_window0 hm hl hi, himage, getElem?_imageOf hh]
  have h1 (i : Nat) (hi : i < 16384) : bank[i]? = some ((mapBanks s.MEM image).get (0xC000 + i)) := by
    rw [get_mapBanks_mirror hm hl hN hi, h0 i hi]
  have hlow : (mapBanks s.MEM image).get 0xFFFC = 0x00 :=
    Option.some.inj ((h1 0x3FFC (by decide)).symm.trans (hbyte 0))
  have hhigh : (mapBanks s.MEM image).get 0xFFFD = 0x90 :=
    Option.some.inj ((h1 0x3FFD (by decide)).symm.trans (hbyte 1))
  have hPC := loadMapped_PC_toNat Config.hardware image s.takeTurn
  rw [takeTurn_MEM, hlow, hhigh] at hPC
  refine ⟨by rw [himage, imageOf_length hh, hB], _, step_load hn hES hl, ?_⟩
  rw [loadMapped_MEM, takeTurn_MEM]
  refine ⟨?_, fun i hi => ⟨h0 i hi, h1 i hi⟩, hlow, hhigh, BitVec.eq_of_toNat_eq hPC, ?_⟩ <;> rw [loadMapped_eq]
  · rfl
  · exact ⟨rfl, rfl, rfl, rfl, rfl, rfl, hES⟩

/-! ## Two images (R76, R79) -/

/-- A bank is fixed by the bytes of the image that lie in it (R65). -/
theorem bank_congr {image image' : List Byte} {k : Nat}
    (h : ∀ i < 16384, image[16 + 16384 * (k - 1) + i]? = image'[16 + 16384 * (k - 1) + i]?) :
    bank image k = bank image' k := by
  apply List.ext_getElem?
  intro i
  simp only [bank, Config.headerSize, Config.bankSize, List.getElem?_take, List.getElem?_drop]
  split
  · next hi => exact h i hi
  · rfl

/-- The mapper reads the bank count and the mapped banks, and nothing else of an image (R77, R79). -/
theorem mapBanks_congr {image image' : List Byte} (hN : declaredBanks image = declaredBanks image')
    (h1 : bank image 1 = bank image' 1) (h2 : declaredBanks image ≠ 1 → bank image 2 = bank image' 2)
    (m : Memory) : mapBanks m image = mapBanks m image' := by
  have hw : window1Bank image = window1Bank image' := by
    unfold window1Bank
    rw [bankCount_eq, bankCount_eq, ← hN]
    split
    · exact h1
    · next hne => exact h2 hne
  rw [mapBanks, mapBanks, h1, hw]

/-- Settles O45: both LOADs succeed, and the images agree on what the mapper reads. -/
theorem loadIgnoresTheUnreadBytes : Obligations.LoadIgnoresTheUnreadBytes := by
  intro s image image' hES hl hl' hheader hprg
  have hN : declaredBanks image = declaredBanks image' := by
    simp only [declaredBanks, List.getD_eq_getElem?_getD, hheader 4 (by decide)]
  have ⟨_, _, hN0⟩ := hl
  have h1 : bank image 1 = bank image' 1 :=
    bank_congr fun i hi => hprg _ (by omega) (by omega) (by omega)
  have h2 : declaredBanks image ≠ 1 → bank image 2 = bank image' 2 := fun hne =>
    bank_congr fun i hi => hprg _ (by omega) (by omega) (by omega)
  have hmap := mapBanks_congr hN h1 h2 s.MEM
  calc hostLoad Config.hardware (some image) s
    _ = .next (loadMapped Config.hardware image s) := hostLoad_loadable hES hl
    _ = .next (loadMapped Config.hardware image' s) := by rw [loadMapped_eq, loadMapped_eq, hmap]
    _ = hostLoad Config.hardware (some image') s := (hostLoad_loadable hES hl').symm

/-- Both windows are overwritten whole, so nothing that an earlier image mapped is left (R76). -/
theorem mapBanks_mapBanks {m : Memory} (hm : m.wf) {first second : List Byte} (h1 : loadable first)
    (h2 : loadable second) : mapBanks (mapBanks m first) second = mapBanks m second := by
  obtain ⟨_, hlen1, hN1⟩ := h1
  obtain ⟨_, hlen2, hN2⟩ := h2
  refine Memory.eq_of_get_eq (mapBanks_wf (mapBanks_wf hm first) second) (mapBanks_wf hm second) fun j => ?_
  rw [get_mapBanks (mapBanks_wf hm first) hN2 hlen2, get_mapBanks hm hN2 hlen2]
  split
  · rfl
  · next hw1 =>
    split
    · rfl
    · next hw0 => rw [get_mapBanks hm hN1 hlen1, if_neg hw1, if_neg hw0]

/-- Settles O46: the two runs leave the same memory, from which Reset() takes `PC`. -/
theorem reloadLeavesNoTraceOfTheFirstImage : Obligations.ReloadLeavesNoTraceOfTheFirstImage := by
  intro s first second hm hES h1 h2
  set s₀ := { s with agenda := [.host (.load (some first)), .host (.load (some second))] }
  set s₁ := { s with agenda := [.host (.load (some second))] }
  have hfirst := step_load (s := s₀) (hostNext_stopped hES rfl) hES h1
  set r := loadMapped Config.hardware first s₀.takeTurn with hr
  have hrMEM : r.MEM = mapBanks s.MEM first := loadMapped_MEM _ _ _
  have hrES : r.ES = .stopped := by rw [hr, loadMapped_eq]; exact hES
  have hra : r.agenda = [.host (.load (some second))] := by rw [hr, loadMapped_eq]; rfl
  have hsecond := step_load (hostNext_stopped hrES hra) hrES h2
  have honly := step_load (s := s₁) (hostNext_stopped hES rfl) hES h2
  have hmap : mapBanks r.takeTurn.MEM second = mapBanks s.MEM second := by
    rw [takeTurn_MEM, hrMEM, mapBanks_mapBanks hm h1 h2]
  refine ⟨_, _, (run_succ_of_step hfirst 1).trans (run_succ_of_step hsecond 0), run_succ_of_step honly 0, ?_, ?_,
    loadMapped_resetRegisters second r.takeTurn, fun j hj => ?_⟩
  · rw [loadMapped_MEM, loadMapped_MEM, hmap]; rfl
  · rw [loadMapped_eq, loadMapped_eq, hmap]; rfl
  · rw [loadMapped_MEM, hmap, get_mapBanks_below_windows hm h2 hj]

end Sys2Proof.Machine
end

section
/-! PROOF. The statements about fetching and executing (41_fetch_execute.md). First the invariant of the block, step
by step; then Fetch(), the ENGINE step and the two instructions; then uninterrupted runs, whose length is the distance
to the first 0x00 byte; then runs under any agenda; last the extension contract. -/

namespace Sys2Proof.Machine

/-! ## The invariant (R18, R102, R106) -/

/-- Every write to `MEM` goes through a primitive that keeps the canonical form. -/
theorem step_keeps_wf {s t : State} (hm : s.MEM.wf) (h : step s = .next t) : t.MEM.wf := by
  cases step_effect h with
  | control keeps => rw [keeps]; exact hm
  | fetch _ ht => rw [ht]; exact hm
  | reset => rw [reply_MEM, doReset_MEM]; exact hm
  | load image => rw [loadMapped_MEM]; exact mapBanks_wf hm image
  | poke a v => exact memWrite_wf hm a v

/-- `LOADED` is never cleared (R18). -/
theorem step_keeps_LOADED {s t : State} (h : step s = .next t) (hL : s.LOADED = true) : t.LOADED = true := by
  rcases step_LOADED h with e | ⟨e, _⟩
  · exact e.trans hL
  · exact e

/-- Only a START with a cartridge loaded makes the ENGINE run, and only a running ENGINE is cancelled (R106, R108). -/
theorem step_keeps_control_loaded {s t : State} (hrun : s.ES = .running → s.LOADED = true)
    (hcancel : s.CANCEL = true → s.LOADED = true) (h : step s = .next t) :
    (t.ES = .running → t.LOADED = true) ∧ (t.CANCEL = true → t.LOADED = true) := by
  have hL := step_keeps_LOADED h
  cases step_controlEffect h with
  | keeps hES hC => exact ⟨fun e => hL (hrun (hES ▸ e)), fun e => hL (hcancel (hC ▸ e))⟩
  | endsRun hs => exact ⟨fun _ => hL (hrun hs), fun _ => hL (hrun hs)⟩
  | starts _ _ hs => exact ⟨fun _ => hL hs, fun _ => hL hs⟩
  | requestsStop _ hs => exact ⟨fun _ => hL (hrun hs), fun _ => hL (hrun hs)⟩

/-- Once a LOAD has succeeded the register file holds its Reset() values (R102). -/
theorem step_keeps_loaded_resetRegisters {s t : State} (hreg : s.LOADED = true → resetRegisters s)
    (h : step s = .next t) : t.LOADED = true → resetRegisters t := by
  cases step_effect h with
  | control keeps => rw [keeps]; exact hreg
  | fetch _ ht => rw [ht]; exact hreg
  | reset => exact fun _ => doReset_resetRegisters s.takeTurn
  | load image => exact fun _ => loadMapped_resetRegisters image s.takeTurn
  | poke => exact hreg

/-- Settles O25, one lemma for each part of the invariant. -/
theorem stepKeepsInvariant : Obligations.StepKeepsInvariant := by
  rintro s t ⟨hm, hrun, hcancel, hreg⟩ h
  obtain ⟨hrun', hcancel'⟩ := step_keeps_control_loaded hrun hcancel h
  exact ⟨step_keeps_wf hm h, hrun', hcancel', step_keeps_loaded_resetRegisters hreg h⟩

/-- The invariant holds of every reachable state. -/
theorem Reachable.inv {s : State} (h : Reachable s) : Inv s := by
  induction h with
  | powerOn a x y p pc agenda => exact invariantHoldsAtResetAndPowerOn.2 a x y p pc agenda
  | step s t _ hs ih => exact stepKeepsInvariant s t ih hs

/-! ## Fetch and the ENGINE step (R85, R87, R93) -/

/-- `PC` plus 1, as a number (R15). -/
theorem toNat_add_one (pc : Addr) : (pc + 1).toNat = (pc.toNat + 1) % 65536 := BitVec.toNat_add pc 1

/-- Settles O7: Fetch() as a record update, and the addition modulo 65536. -/
theorem fetchReadsThenAdvances : Obligations.FetchReadsThenAdvances := by
  intro s
  rw [fetch_eq]
  refine ⟨rfl, rfl, toNat_add_one s.PC, fun hpc => ?_⟩
  rw [hpc]
  exact ⟨rfl, rfl⟩

/-- `CANCEL` is tested before anything is fetched (R87). -/
theorem engineStep_cancelled (cfg : Config.Params) {s : State} (hc : s.CANCEL = true) :
    engineStep cfg s = .next ((endRun none s).reply .stopReturned) := if_pos hc

/-- Not cancelled, an ENGINE step is one fetch and one dispatch, for every extension table (R87, R93). -/
theorem engineStep_dispatches (cfg : Config.Params) {s : State} (hc : s.CANCEL = false) :
    engineStep cfg s = dispatch cfg (s.MEM.get s.PC.toNat) { s with PC := s.PC + 1 } := by
  rw [engineStep, if_neg (by simp [hc]), fetch_eq]

/-- 0x00 is in no extension table's domain (R93). -/
theorem extEntry_zero (cfg : Config.Params) : extEntry cfg 0x00 = none := rfl

theorem extEntry_of_ne_zero (cfg : Config.Params) {op : Byte} (h : op ≠ 0x00) : extEntry cfg op = cfg.ext op :=
  if_neg h

theorem dispatch_of_some {cfg : Config.Params} {op : Byte} {e : ExtEntry} (h : extEntry cfg op = some e) (s : State) :
    dispatch cfg op s = .next (runEntry e s) := by
  rw [dispatch, h]

theorem dispatch_of_none {cfg : Config.Params} {op : Byte} (h : extEntry cfg op = none) (s : State) :
    dispatch cfg op s = exec (decodeByte op) s := by
  rw [dispatch, h]

/-- Settles O8: the `CANCEL` test, or the dispatch of the byte at `PC` by the entry it selects. -/
theorem engineStepTestsCancelThenFetchesThenDispatches :
    Obligations.EngineStepTestsCancelThenFetchesThenDispatches := by
  intro cfg s
  refine ⟨fun hES => ?_, fun hES => ?_, fun hc => ⟨_, engineStep_cancelled cfg hc⟩, fun hc hb => ?_,
    fun hc hb e he => ?_, fun hc hb he => ?_⟩
  · rw [engineTurn, hES]
  · rw [engineTurn, hES]
  · rw [engineStep_dispatches cfg hc, hb, dispatch_of_none (extEntry_zero cfg), decodeByte_zero]
  · rw [engineStep_dispatches cfg hc, dispatch_of_some ((extEntry_of_ne_zero cfg hb).trans he)]
  · rw [engineStep_dispatches cfg hc, dispatch_of_none ((extEntry_of_ne_zero cfg hb).trans he), decodeByte_ne_zero hb]

/-- Settles O9: `decode` of one byte is `decodeByte`. -/
theorem stepRunsTheDecodedInstruction : Obligations.StepRunsTheDecodedInstruction := by
  intro s i hn hd
  have hi : decodeByte (s.MEM.get s.PC.toNat) = i := by simpa [decode_cons] using hd
  rw [step_exec hn, hi]
  rfl

/-- A table word of 8 bits stands for itself (R50). -/
theorem tableByte_eight (b : Byte) : tableByte 8 b.toNat = b := by
  rw [tableByte, Nat.mod_eq_of_lt b.isLt, BitVec.ofNat_toNat, BitVec.setWidth_eq]

/-- Settles O13: the placed byte is the one at `PC`, and the turn placed with it is the ENGINE's. -/
theorem placedWordRunsNext : Obligations.PlacedWordRunsNext := by
  intro s b hm
  have hbyte : (memWrite s.MEM s.PC.toNat b.toNat).get s.PC.toNat = b := by
    rw [get_memWrite_PC hm, ofInt8_toNat]
  rw [State.withFetchWord, tableByte_eight, step_exec ⟨rfl, rfl, rfl⟩, placeInstruction_MEM,
    placeInstruction_PC, hbyte]
  rfl

/-! ## The two instructions (R90, R91) -/

/-- The ENGINE's next step on a byte other than 0x00 is SKP (R91). -/
theorem step_skips {s : State} (hn : engineNext s) (hb : s.MEM.get s.PC.toNat ≠ 0x00) :
    step s = .next { s.takeTurn with PC := s.PC + 1 } := by
  rw [step_exec hn, decodeByte_ne_zero hb, exec_skp]

/-- Settles O10: HLT as an instruction, as a step, and as a byte under a cancelled ENGINE. -/
theorem haltStopsTheRun : Obligations.HaltStopsTheRun := by
  refine ⟨exec_hlt, fun s hn hb => ⟨_, step_halts hn hb, rfl, rfl, fun hL => ?_⟩, fun s hES hc _ => ?_, fun _ => rfl⟩
  · rw [hostStart, if_neg (by simp), if_neg (by simp [hL])]
    exact ⟨rfl, rfl⟩
  · exact ⟨_, step_stopPending hES hc, rfl, rfl⟩

/-- Settles O12: HLT writes `ES` and `STATUS`, SKP nothing. -/
theorem instructionFrame : Obligations.InstructionFrame := by
  intro i s t h
  cases i with
  | hlt => cases h; simp [State.flagI]
  | skp op => cases h; simp

/-! ## Uninterrupted runs (R88, R101) -/

/-- The address `k` bytes on is `PC` plus `k` (R15). -/
theorem toNat_PC_add_ofNat (s : State) (k : Nat) : (s.PC + BitVec.ofNat 16 k).toNat = s.streamAddr k := by
  rw [BitVec.toNat_add, BitVec.toNat_ofNat, Nat.add_mod_mod]
  rfl

theorem add_ofNat_succ (pc : Addr) (k : Nat) : pc + BitVec.ofNat 16 (k + 1) = pc + BitVec.ofNat 16 k + 1 := by
  rw [BitVec.ofNat_add, BitVec.add_assoc]
  rfl

/-- Wherever `PC` stands, an uninterrupted ENGINE has the next turn. -/
theorem engineNext_advanced {s : State} (h : uninterrupted s) (pc : Addr) : engineNext { s with PC := pc } := by
  obtain ⟨hES, hc, ha⟩ := h
  exact ⟨hES, hc, by simp [ha]⟩

theorem takeTurn_advanced {s : State} (h : uninterrupted s) (pc : Addr) :
    ({ s with PC := pc } : State).takeTurn = { s with PC := pc } := by
  obtain ⟨_, _, ha⟩ := h
  exact takeTurn_of_nil ha

/-- An uninterrupted run passes over bytes other than 0x00 one a step (R91). -/
theorem run_skips {s : State} (h : uninterrupted s) {d : Nat} (hb : ∀ k < d, s.MEM.get (s.streamAddr k) ≠ 0x00) :
    run d s = .next { s with PC := s.PC + BitVec.ofNat 16 d } := by
  induction d with
  | zero => simp
  | succ d ih =>
    have hd := hb d d.lt_succ_self
    rw [← toNat_PC_add_ofNat] at hd
    rw [run_snoc (ih fun k hk => hb k (Nat.lt_succ_of_lt hk)), step_skips (engineNext_advanced h _) hd,
      takeTurn_advanced h, add_ofNat_succ]

/-- Settles O20: `d` SKPs, and then HLT. -/
theorem runStopsAtTheFirstHaltByte : Obligations.RunStopsAtTheFirstHaltByte := by
  intro s d h hb h0
  refine ⟨fun k hk => run_skips h fun j hj => hb j (hj.trans_le hk), ?_⟩
  rw [← toNat_PC_add_ofNat] at h0
  rw [run_snoc (run_skips h hb), step_halts (engineNext_advanced h _) h0,
    takeTurn_advanced h, add_ofNat_succ]
  rfl

/-- Where there is a 0x00 byte on the way there is a first one, at which the run ends by HLT (R101). -/
theorem run_halts_within {s : State} (h : uninterrupted s) {n : Nat} (hn : s.MEM.get (s.streamAddr n) = 0x00) :
    ∃ d ≤ n, ∃ t, run (d + 1) s = .next t ∧ t.ES = .stopped ∧ t.PC.toNat = s.streamAddr (d + 1) ∧ t.MEM = s.MEM ∧
      t.STATUS = s.STATUS ++ [.halted t.PC] := by
  have hex : ∃ d, s.MEM.get (s.streamAddr d) = 0x00 := ⟨n, hn⟩
  obtain ⟨_, hrun⟩ :=
    runStopsAtTheFirstHaltByte s (Nat.find hex) h (fun k hk => Nat.find_min hex hk) (Nat.find_spec hex)
  exact ⟨Nat.find hex, Nat.find_min' hex hn, _, hrun, rfl, toNat_PC_add_ofNat s _, rfl, rfl⟩

/-- A run that starts in a window reaches the bytes below it, at 0x0000, when `PC` wraps (R15). -/
theorem exists_streamAddr_below_windows (s : State) :
    ∃ n, s.streamAddr n < 0x8000 ∧ (s.PC.toNat < 0x8000 → n = 0) ∧
      (0x8000 ≤ s.PC.toNat → n = 0x10000 - s.PC.toNat) := by
  unfold State.streamAddr
  by_cases hp : s.PC.toNat < 0x8000
  · exact ⟨0, by omega, fun _ => rfl, by omega⟩
  · exact ⟨0x10000 - s.PC.toNat, by omega, by omega, fun _ => rfl⟩

/-- Settles O21: the run starts below the windows, or wraps into the zero bytes there, unless it has halted before. -/
theorem runIsBoundedWhenLowMemoryIsZero : Obligations.RunIsBoundedWhenLowMemoryIsZero := by
  intro s h hlow
  obtain ⟨n, haddr, hn_low, hn_window⟩ := exists_streamAddr_below_windows s
  obtain ⟨d, hd, t, hrun, hES, hPC, hMEM, hST⟩ := run_halts_within h (hlow _ haddr)
  refine ⟨d + 1, t, hrun, hES, ?_, ?_, fun hp => ?_, fun hp => ?_, hPC, hMEM, hST⟩ <;> omega

/-- Every address lies on the way of the run, some number of bytes on (R15). -/
theorem exists_streamAddr_eq (s : State) {i : Nat} (hi : i < 65536) : ∃ n, s.streamAddr n = i := by
  have hpc := s.PC.isLt
  exact ⟨65536 - s.PC.toNat + i, by unfold State.streamAddr; omega⟩

theorem streamAddr_lt (s : State) (k : Nat) : s.streamAddr k < 65536 := Nat.mod_lt _ (by decide)

theorem run_unique {k : Nat} {s t u : State} (ht : run k s = .next t) (hu : run k s = .next u) : t = u :=
  Host.Outcome.next.inj (ht.symm.trans hu)

/-- Settles O22: a 0x00 byte lies on the way of the run, which then ends; without one the run only skips. -/
theorem runDivergesExactlyWithoutHaltByte : Obligations.RunDivergesExactlyWithoutHaltByte := by
  intro s h
  refine ⟨fun hrun i hi h0 => ?_, fun hb k => ?_⟩
  · obtain ⟨n, hn⟩ := exists_streamAddr_eq s hi
    obtain ⟨d, _, t, ht, hstop, _⟩ := run_halts_within h (n := n) (by rw [hn, h0])
    obtain ⟨u, hu, hrunning⟩ := hrun (d + 1)
    obtain rfl := run_unique ht hu
    simp [hstop] at hrunning
  · exact ⟨_, run_skips h fun j _ => hb _ (streamAddr_lt s j), h.1⟩

/-- While Running a step changes `PC`, the control bits and `STATUS`, and the model's own two fields (R102). -/
theorem step_running_frame {s t : State} (hES : s.ES = .running) (h : step s = .next t) :
    t = { s with
      PC := t.PC, ES := t.ES, CANCEL := t.CANCEL, STATUS := t.STATUS, agenda := t.agenda, replies := t.replies } := by
  cases step_effect h with
  | control keeps => rw [keeps]
  | fetch _ ht => rw [ht]
  | reset hs | load _ hs | poke _ _ hs => simp [hES] at hs

/-- `k` fetches of an uninterrupted run advance `PC` by `k`, whether or not the last one fetched HLT (R102). -/
theorem run_PC_toNat {s t : State} {k : Nat} (h : uninterrupted s)
    (hrunning : ∀ j < k, ∃ u, run j s = .next u ∧ u.ES = .running) (hrun : run k s = .next t) :
    t.PC.toNat = s.streamAddr k := by
  by_cases hb : ∀ j < k, s.MEM.get (s.streamAddr j) ≠ 0x00
  · rw [run_skips h hb] at hrun
    cases hrun
    exact toNat_PC_add_ofNat s k
  · push Not at hb
    obtain ⟨n, hn, h0⟩ := hb
    obtain ⟨d, hd, t', ht', hstop, hPC, _⟩ := run_halts_within h h0
    have hk : d + 1 = k := by
      by_contra hne
      obtain ⟨u, hu, hES⟩ := hrunning (d + 1) (by omega)
      obtain rfl := run_unique ht' hu
      simp [hstop] at hES
    subst hk
    obtain rfl := run_unique ht' hrun
    exact hPC

/-- Settles O23: the invariant of reachable states, the frame of a Running step, and the length of a run. -/
theorem registerFileAfterAnyRun : Obligations.RegisterFileAfterAnyRun := by
  refine ⟨fun s hr hL => ?_, fun s t hES h => step_running_frame hES h, fun s t k h hj hrun => run_PC_toNat h hj hrun⟩
  obtain ⟨_, _, _, hreg⟩ := hr.inv
  exact hreg hL

/-! ## Runs under any agenda (R25) -/

theorem hostStart_agenda (s : State) : (hostStart s).agenda = s.agenda := by
  rcases hostStart_cases s with ⟨_, e⟩ | ⟨_, _, e⟩ | ⟨_, _, e⟩ <;> simp [e]

theorem hostStop_agenda (s : State) : (hostStop s).agenda = s.agenda := by
  rcases hostStop_cases s with ⟨_, e⟩ | ⟨_, e⟩ <;> simp [e]

/-- A HOST operation leaves the rest of the schedule alone (R25). -/
theorem hostStep_agenda {cfg : Config.Params} {op : HostOp} {s t : State} (h : hostStep cfg op s = .next t) :
    t.agenda = s.agenda := by
  rcases hostStep_next h with ⟨_, _, _, rfl, _, rfl⟩ | ⟨_, _, rfl, _, rfl⟩ | ⟨rfl, rfl⟩ | ⟨rfl, rfl⟩ |
    ⟨_, rfl, rfl⟩ | ⟨_, rfl, rfl⟩ | ⟨_, _, _, rfl, rfl⟩ | ⟨rfl, rfl⟩
  · rfl
  · rw [loadMapped_eq]
  · exact hostStart_agenda s
  · exact hostStop_agenda s
  · rw [doReset_eq]; rfl
  · rfl
  · rfl
  · rfl

/-- A step takes at most the first turn of the schedule and adds none (R25). -/
theorem step_agenda_subset {s t : State} (h : step s = .next t) : t.agenda ⊆ s.agenda := by
  have htail : s.takeTurn.agenda ⊆ s.agenda := List.tail_subset s.agenda
  rcases step_next h with ⟨_, _, rfl⟩ | ⟨_, _, rfl⟩ | ⟨_, _, rfl⟩ | ⟨_, rfl⟩ | ⟨op, _, hop⟩
  · exact List.Subset.refl s.agenda
  · exact htail
  · exact htail
  · exact htail
  · rw [hostStep_agenda hop]; exact htail

/-- The HOST performs an operation only if its schedule holds it. -/
theorem mem_agenda_of_hostNext {s : State} {op : HostOp} (h : hostNext s op) : Turn.host op ∈ s.agenda :=
  List.mem_of_head? h.2

/-- What a step keeps while no turn is added to the schedule, a run keeps. -/
theorem run_keeps_of_agenda_subset {Q : State → Prop} {s t : State} {k : Nat}
    (hQ : ∀ u v, u.agenda ⊆ s.agenda → Q u → step u = .next v → Q v) (hs : Q s) (h : run k s = .next t) : Q t := by
  have hkeeps : ∀ u v, u.agenda ⊆ s.agenda ∧ Q u → step u = .next v → v.agenda ⊆ s.agenda ∧ Q v :=
    fun u v ⟨ha, hu⟩ huv => ⟨List.Subset.trans (step_agenda_subset huv) ha, hQ u v ha hu huv⟩
  exact (run_keeps hkeeps ⟨List.Subset.refl s.agenda, hs⟩ h).2

/-- The five registers besides `PC` are the same in both states (R11 to R13). -/
def SameRegisters (s t : State) : Prop :=
  t.A = s.A ∧ t.X = s.X ∧ t.Y = s.Y ∧ t.SP = s.SP ∧ t.P = s.P

theorem SameRegisters.trans {s t u : State} (h : SameRegisters s t) (h' : SameRegisters t u) : SameRegisters s u := by
  obtain ⟨hA, hX, hY, hSP, hP⟩ := h
  obtain ⟨hA', hX', hY', hSP', hP'⟩ := h'
  exact ⟨hA'.trans hA, hX'.trans hX, hY'.trans hY, hSP'.trans hSP, hP'.trans hP⟩

theorem SameRegisters.resetRegisters {s t : State} (h : SameRegisters s t) (hs : resetRegisters s) :
    resetRegisters t := by
  obtain ⟨hA, hX, hY, hSP, hP⟩ := h
  rwa [Machine.resetRegisters, hA, hX, hY, hSP, hP]

/-- Without LOAD and RESET nothing writes the five registers (R91). -/
theorem run_sameRegisters {s t : State} {k : Nat} (hload : ∀ image, Turn.host (.load image) ∉ s.agenda)
    (hreset : Turn.host .reset ∉ s.agenda) (h : run k s = .next t) : SameRegisters s t := by
  refine run_keeps_of_agenda_subset (Q := SameRegisters s) (fun u v ha hu huv => ?_) ⟨rfl, rfl, rfl, rfl, rfl⟩ h
  rcases registerFileWrittenOnlyByReset u v huv with hsame | ⟨_, hn | ⟨image, hn, _⟩, _⟩
  · exact hu.trans hsame
  · exact absurd (ha (mem_agenda_of_hostNext hn)) hreset
  · exact absurd (ha (mem_agenda_of_hostNext hn)) (hload _)

/-- Settles O11: SKP as an instruction, as a step, at the last address, and in a run under any agenda. -/
theorem skipOnlyAdvancesThePC : Obligations.SkipOnlyAdvancesThePC := by
  refine ⟨exec_skp, fun s hn hb => step_skips hn hb, fun s hn hb hpc => ?_, fun s t k hload hreset h => ?_⟩
  · refine ⟨_, step_skips hn hb, ?_, hn.1⟩
    rw [hpc]; rfl
  · have hsame := run_sameRegisters hload hreset h
    have ⟨hA, hX, hY, hSP, hP⟩ := hsame
    exact ⟨hA, hX, hY, hSP, hP, hsame.resetRegisters⟩

/-- Settles O31: a LOAD writes the windows only, and nothing else but a POKE writes `MEM`. -/
theorem lowMemoryIsConstantWithoutPoke : Obligations.LowMemoryIsConstantWithoutPoke := by
  intro s t k hm hpoke h
  refine (run_keeps_of_agenda_subset (Q := fun u => u.MEM.wf ∧ ∀ j < 0x8000, u.MEM.get j = s.MEM.get j)
    (fun u v ha ⟨hwf, hlow⟩ huv => ⟨step_keeps_wf hwf huv, fun j hj => ?_⟩) ⟨hm, fun _ _ => rfl⟩ h).2
  rcases memoryWrittenOnlyByPokeAndLoad u v hwf huv with e | ⟨_, a, w, hn, _⟩ | ⟨_, _, _, _, hkeep⟩
  · rw [e, hlow j hj]
  · exact absurd (ha (mem_agenda_of_hostNext hn)) (hpoke a w)
  · rw [hkeep j hj, hlow j hj]

/-! ## The extension contract (R94 to R96, R98) -/

/-- One byte after the next is two bytes after this one (R15). -/
theorem streamAddr_advanced (s : State) (k : Nat) :
    ({ s with PC := s.PC + 1 } : State).streamAddr k = s.streamAddr (k + 1) := by
  unfold State.streamAddr
  rw [toNat_add_one]
  omega

/-- The bytes that `n` operand fetches return, the one at `PC` and then those from `PC + 1` (R94). -/
theorem fetchOperands_bytes (n : Nat) (s : State) :
    (fetchOperands n s).1 = (List.range n).map (fun k => s.MEM.get (s.streamAddr k)) := by
  induction n generalizing s with
  | zero => rfl
  | succ n ih =>
    have hfirst : s.streamAddr 0 = s.PC.toNat := Nat.mod_eq_of_lt s.PC.isLt
    simp only [fetchOperands, fetch_eq, ih, streamAddr_advanced]
    rw [List.range_succ_eq_map, List.map_cons, List.map_map, hfirst]
    rfl

/-- Settles O54: the bytes, and the state, of `n` operand fetches. -/
theorem operandBytesFollowTheOpcode : Obligations.OperandBytesFollowTheOpcode := by
  intro n s
  rw [fetchOperands_state]
  exact ⟨fetchOperands_bytes n s, rfl, toNat_PC_add_ofNat s n⟩

/-- `t` has the fields of `s` that no handler reaches, and the same `ES` unless it is Stopped (R95). -/
structure HandlerFrame (s t : State) : Prop where
  loaded : t.LOADED = s.LOADED
  cancel : t.CANCEL = s.CANCEL
  agenda : t.agenda = s.agenda
  replies : t.replies = s.replies
  es : t.ES = s.ES ∨ t.ES = .stopped

theorem HandlerFrame.endRun {s t : State} (h : HandlerFrame s t) (e : Option StatusEvent) :
    HandlerFrame s (endRun e t) where
  loaded := (endRun_LOADED t e).trans h.loaded
  cancel := (endRun_CANCEL t e).trans h.cancel
  agenda := (endRun_agenda t e).trans h.agenda
  replies := (endRun_replies t e).trans h.replies
  es := .inr (endRun_ES t e)

theorem HandlerFrame.writeReg {s t : State} (h : HandlerFrame s t) (r : Reg) (v : Int) :
    HandlerFrame s (t.writeReg r v) where
  loaded := (writeReg_LOADED t r v).trans h.loaded
  cancel := (writeReg_CANCEL t r v).trans h.cancel
  agenda := (writeReg_agenda t r v).trans h.agenda
  replies := (writeReg_replies t r v).trans h.replies
  es := by rw [writeReg_ES]; exact h.es

theorem runHandler_frame (h : Handler) (s : State) : HandlerFrame s (runHandler h s) :=
  runHandler_keeps (HandlerFrame s) (fun _ hf => hf.endRun none) (fun _ hf => hf.endRun (some .runFailed))
    (fun _ _ _ hf => ⟨hf.loaded, hf.cancel, hf.agenda, hf.replies, hf.es⟩) (fun _ r v hf => hf.writeReg r v) h s
    ⟨rfl, rfl, rfl, rfl, .inl rfl⟩

/-- A handler appends nothing but the RunFailed of a `raise RunError`, which is the last thing it does (R96). -/
theorem runHandler_STATUS (h : Handler) (s : State) :
    (runHandler h s).STATUS = s.STATUS ∨
    ((runHandler h s).STATUS = s.STATUS ++ [.runFailed] ∧ (runHandler h s).ES = .stopped) := by
  induction h generalizing s with
  | done => exact .inl rfl
  | raiseRunError => exact .inr ⟨rfl, rfl⟩
  | stopEngine _ ih => exact ih (endRun none s)
  | memRead addr _ ih => exact ih (memRead s.MEM addr) s
  | memWrite addr v _ ih => exact ih { s with MEM := memWrite s.MEM addr v }
  | regRead r _ ih => exact ih (s.readReg r) s
  | regWrite r v _ ih => rw [← writeReg_STATUS s r v]; exact ih (s.writeReg r v)

/-- Running an entry is running its body on the operand bytes, with `PC` after them (R94, R95). -/
theorem runEntry_eq (e : ExtEntry) (s : State) :
    runEntry e s = runHandler (e.body (fetchOperands e.operandBytes s).1)
      { s with PC := s.PC + BitVec.ofNat 16 e.operandBytes } := by
  rw [← fetchOperands_state]
  rfl

/-- Settles O55: the operand fetches move `PC` only, and the body keeps the frame and appends at most one event. -/
theorem handlersKeepTheContract : Obligations.HandlersKeepTheContract := by
  intro e s hm
  refine ⟨runEntry_wf e hm, ?_⟩
  rw [runEntry_eq]
  set body := e.body (fetchOperands e.operandBytes s).1
  set s' := { s with PC := s.PC + BitVec.ofNat 16 e.operandBytes }
  obtain ⟨hL, hC, ha, hr, hES⟩ := runHandler_frame body s'
  exact ⟨hL, hC, ha, hr, runHandler_STATUS body s', hES⟩

/-- Settles O56: the writes before `raise RunError` stand in the state that ends the run. -/
theorem runErrorEndsTheRunWithoutRollback : Obligations.RunErrorEndsTheRunWithoutRollback := by
  intro s a v r w
  simp only [runHandler, endRun, State.emit, writeReg_STATUS]

section TwoParameterSets

variable {cfg cfg' : Config.Params}

/-- Of the parameters a HOST operation reads the two reset values only (R98). -/
theorem hostStep_congr (hSP : cfg.resetSP = cfg'.resetSP) (hP : cfg.resetP = cfg'.resetP) (op : HostOp) (s : State) :
    hostStep cfg op s = hostStep cfg' op s := by
  have hdo (u : State) : doReset cfg u = doReset cfg' u := by rw [doReset_eq, doReset_eq, hSP, hP]
  cases op with
  | load image => simp only [hostStep, hostLoad, loadMapped, hdo]
  | reset => simp only [hostStep, hostReset, hdo]
  | start | stop | peek | poke | inspect => rfl

/-- An ENGINE step reads `EXT` only at the opcode it fetches (R93). -/
theorem engineStep_congr {s : State}
    (hext : s.CANCEL = false → extEntry cfg (s.MEM.get s.PC.toNat) = extEntry cfg' (s.MEM.get s.PC.toNat)) :
    engineStep cfg s = engineStep cfg' s := by
  cases hc : s.CANCEL with
  | true => rw [engineStep_cancelled cfg hc, engineStep_cancelled cfg' hc]
  | false => rw [engineStep_dispatches cfg hc, engineStep_dispatches cfg' hc, dispatch, dispatch, hext hc]

theorem engineTurn_congr {s : State} (h : s.ES = .running → engineStep cfg s = engineStep cfg' s) :
    engineTurn cfg s = engineTurn cfg' s := by
  cases hES : s.ES with
  | running => rw [engineTurn, engineTurn, hES]; exact h hES
  | stopped => rw [engineTurn, engineTurn, hES]

/-- A transition reads `EXT` only when it fetches, at the opcode it fetches (R98). -/
theorem stepWith_congr {s : State} (hSP : cfg.resetSP = cfg'.resetSP) (hP : cfg.resetP = cfg'.resetP)
    (hext : engineNext s → extEntry cfg (s.MEM.get s.PC.toNat) = extEntry cfg' (s.MEM.get s.PC.toNat)) :
    stepWith cfg s = stepWith cfg' s := by
  rw [stepWith, stepWith]
  split
  · next hp =>
    obtain ⟨_, hc⟩ := (stopPending_iff s).1 hp
    rw [engineStep_cancelled cfg hc, engineStep_cancelled cfg' hc]
  · rcases ha : s.agenda with _ | ⟨_ | op, rest⟩
    · exact engineTurn_congr fun hES => engineStep_congr fun hc => hext ⟨hES, hc, by simp [ha]⟩
    · exact engineTurn_congr (s := s.takeTurn) fun hES => engineStep_congr (s := s.takeTurn) fun hc =>
        hext ⟨hES, hc, by simp [ha]⟩
    · exact hostStep_congr hSP hP op s.takeTurn

end TwoParameterSets

/-- Settles O57: the tables agree at the opcode fetched, if one is: 0x00 is in neither, the others by hypothesis. -/
theorem extensionLeavesTheLoopAlone : Obligations.ExtensionLeavesTheLoopAlone := by
  intro cfg cfg' s hSP hP
  refine ⟨fun op => hostStep_congr hSP hP op s, fun hno => stepWith_congr hSP hP fun hn => ?_,
    fun _ he he' => stepWith_congr hSP hP fun _ => ?_⟩
  · have hb : s.MEM.get s.PC.toNat = 0x00 := by
      by_contra hb
      exact hno ⟨hn, hb⟩
    rw [hb, extEntry_zero, extEntry_zero]
  · rw [extEntry, extEntry, he, he']

end Sys2Proof.Machine
end

section
/-! PROOF. The statements about the lifecycle (42_lifecycle.md). First each HOST operation as a step of its own; then
STOP as request and return; then START and any number of ENGINE turns, under which a HOST that is not blocked stays
so; last what a HOST that never LOADs can reach. -/

namespace Sys2Proof.Machine

/-! ## Runs put together -/

theorem run_two {s t u : State} (hs : step s = .next t) (ht : step t = .next u) : run 2 s = .next u :=
  (run_succ_of_step hs 1).trans (run_succ_of_step ht 0)

theorem run_add {j : Nat} {s t : State} (h : run j s = .next t) (k : Nat) : run (j + k) s = run k t := by
  induction j generalizing s with
  | zero => cases h; rw [Nat.zero_add]
  | succ j ih =>
    obtain ⟨u, hu, hj⟩ := run_succ_next h
    rw [Nat.add_right_comm, run_succ_of_step hu, ih hj]

/-! ## POKE, PEEK, INSPECT and RESET (R112 to R115) -/

/-- Settles O3: the write reaches the masked address only; while Running the HOST breaks its duty. -/
theorem pokeStoresOneMaskedByte : Obligations.PokeStoresOneMaskedByte := by
  intro s a v hm hn
  refine ⟨fun hES => ⟨memWrite s.MEM a v, step_poke hn hES, fun j _ => ?_⟩, fun hES => ?_⟩
  · rw [get_memWrite hm, ← maskAddr_toInt, maskByte]
    simp only [Int.natCast_inj]
  · rw [step_hostNext hn]
    exact if_pos hES

/-- Settles O4: both answers are read off the state, whose turn is taken. -/
theorem peekAndInspectOnlyAnswer : Obligations.PeekAndInspectOnlyAnswer :=
  ⟨fun _ _ hn => step_hostNext hn, fun _ hn => step_hostNext hn⟩

/-- RESET while Stopped (R115). -/
theorem step_reset {s : State} (hn : hostNext s .reset) (hES : s.ES = .stopped) :
    step s = .next ((doReset Config.hardware s.takeTurn).reply .resetReturned) := by
  rw [step_hostNext hn]
  exact hostReset_stopped (s := s.takeTurn) Config.hardware hES

/-- Settles O38: Reset() leaves `P` at 0x04, whose only set bit is bit 2, and keeps all but the register file. -/
theorem resetOperationRunsReset : Obligations.ResetOperationRunsReset := by
  intro s hn
  refine ⟨fun hES => ⟨_, step_reset hn hES, rfl, ?_⟩, fun hES => ?_⟩
  · have hI : interruptDisable 0x04 = true := by decide
    have hbits : ∀ i < 8, i ≠ 2 → (0x04 : Byte).getLsbD i = false := by decide
    rw [doReset_eq]
    exact ⟨rfl, rfl, hI, hbits, rfl, hES, rfl, rfl⟩
  · rw [step_hostNext hn]
    exact if_pos hES

/-! ## START (R106, R107) -/

/-- START while Running is ignored (R107). -/
theorem step_start_running {s : State} (hn : hostNext s .start) (hES : s.ES = .running) :
    step s = .next ((s.takeTurn.emit (.startIgnored .alreadyRunning)).reply .startReturned) := by
  rw [step_hostNext hn]
  simp [hostStep, hostStart, hES]

/-- START without a cartridge is ignored (R107). -/
theorem step_start_noCartridge {s : State} (hn : hostNext s .start) (hES : s.ES = .stopped) (hL : s.LOADED = false) :
    step s = .next ((s.takeTurn.emit (.startIgnored .noCartridge)).reply .startReturned) := by
  rw [step_hostNext hn]
  simp [hostStep, hostStart, hES, hL]

/-- Settles O49, one step lemma for each case. -/
theorem startTakesEffectOrIsIgnored : Obligations.StartTakesEffectOrIsIgnored :=
  fun _ hn => ⟨step_start hn, step_start_running hn, step_start_noCartridge hn⟩

/-! ## STOP (R108, R109) -/

/-- STOP while Running is a request (R108). -/
theorem step_stop_running {s : State} (hn : hostNext s .stop) (hES : s.ES = .running) :
    step s = .next { s.takeTurn with CANCEL := true } := by
  rw [step_hostNext hn]
  simp [hostStep, hostStop, hES]

/-- STOP while Stopped is ignored (R109). -/
theorem step_stop_stopped {s : State} (hn : hostNext s .stop) (hES : s.ES = .stopped) :
    step s = .next ((s.takeTurn.emit .stopIgnored).reply .stopReturned) := by
  rw [step_hostNext hn]
  simp [hostStep, hostStop, hES]

/-- Settles O51: the model appends StopIgnored. -/
theorem stopWhileStoppedIsIgnored : Obligations.StopWhileStoppedIsIgnored :=
  fun _ hn hES => ⟨_, .inr rfl, step_stop_stopped hn hES⟩

/-- A STOP while Running takes two transitions: the request, and the ENGINE step that ends the run (R108). -/
theorem run_stop_running {s : State} (hn : hostNext s .stop) (hES : s.ES = .running) :
    run 2 s = .next ((endRun none { s.takeTurn with CANCEL := true }).reply .stopReturned) :=
  run_two (step_stop_running hn hES) (step_stopPending hES rfl)

/-- Settles O50: request and end of the run; `CANCEL` is cleared by a START that takes effect and by nothing else. -/
theorem stopRequestsAndTheNextStepEndsTheRun : Obligations.StopRequestsAndTheNextStepEndsTheRun := by
  refine ⟨fun s hn hES => ⟨_, _, step_stop_running hn hES, rfl, step_stopPending hES rfl, rfl⟩,
    fun s t h hs ht => ?_⟩
  obtain ⟨_, _, _, hclear⟩ := loadedAndCancelChangeOnlyAsListed s t h
  obtain ⟨_, _, hn⟩ := hclear hs ht
  exact hn

/-- A START after a run that has ended resumes at the `PC` the run has left (R110). -/
theorem run_start_resumes {k : Nat} {s t : State} {rest : List Turn} (h : run k s = .next t) (hES : t.ES = .stopped)
    (hL : t.LOADED = true) (ha : t.agenda = .host .start :: rest) :
    ∃ u, run (k + 1) s = .next u ∧ u.ES = .running ∧ u.CANCEL = false ∧ u.PC = t.PC :=
  ⟨_, (run_snoc h).trans (step_start (hostNext_stopped hES ha) hES hL), rfl, rfl, rfl⟩

/-- Settles O53: HLT and an observed request both leave a Stopped machine, which the START resumes at its `PC`. -/
theorem startContinuesWhereTheRunStopped : Obligations.StartContinuesWhereTheRunStopped := by
  refine ⟨fun s rest hES hc hL hb ha => ?_, fun s rest hES hc hL ha => ?_⟩
  · have hhalt := step_halts ⟨hES, hc, by simp [ha]⟩ hb
    obtain ⟨t, ht, hrun, hC, hPC⟩ :=
      run_start_resumes (rest := rest) (run_succ_of_step hhalt 0) (endRun_ES _ _) hL (by simp [ha])
    exact ⟨t, ht, hrun, hC, by rw [hPC, endRun_PC, toNat_add_one]⟩
  · have hstop := run_stop_running ⟨by simp [stopPending, hc], by simp [ha]⟩ hES
    obtain ⟨t, ht, hrun, hC, hPC⟩ := run_start_resumes (rest := rest) hstop rfl hL (by simp [ha])
    exact ⟨t, ht, hrun, hC, hPC⟩

/-! ## START, ENGINE turns, STOP (R116) -/

theorem stopPending_of_stopped {s : State} (hES : s.ES = .stopped) : stopPending s = false := by
  simp [stopPending, hES]

/-- No START leaves the HOST blocked: it keeps `ES` and `CANCEL`, or clears `CANCEL` (R106, R107). -/
theorem stopPending_hostStart {s : State} (h : stopPending s = false) : stopPending (hostStart s) = false := by
  rcases hostStart_cases s with ⟨_, e⟩ | ⟨_, _, e⟩ | ⟨_, _, e⟩ <;> rw [e]
  · exact h
  · exact h
  · rfl

theorem hostStart_replies (s : State) : (hostStart s).replies = s.replies ++ [.startReturned] := by
  rcases hostStart_cases s with ⟨_, e⟩ | ⟨_, _, e⟩ | ⟨_, _, e⟩ <;> rw [e] <;> rfl

/-- An ENGINE turn of a HOST that is not blocked: HLT, SKP or an idle turn, none of which returns anything (R87). -/
theorem step_engineTurn {s : State} {rest : List Turn} (hp : stopPending s = false) (ha : s.agenda = .engine :: rest) :
    ∃ t, step s = .next t ∧ stopPending t = false ∧ t.agenda = rest ∧ t.replies = s.replies := by
  have hrest : s.takeTurn.agenda = rest := by rw [takeTurn_agenda, ha, List.tail_cons]
  have hhead : s.agenda.head?.getD .engine = .engine := by simp [ha]
  cases hES : s.ES with
  | stopped => exact ⟨_, step_idle hES hhead, hp, hrest, rfl⟩
  | running =>
    have hn : engineNext s := ⟨hES, by simpa [stopPending, hES] using hp, hhead⟩
    by_cases hb : s.MEM.get s.PC.toNat = 0x00
    · exact ⟨_, step_halts hn hb, stopPending_of_stopped (endRun_ES _ _), hrest, rfl⟩
    · exact ⟨_, step_skips hn hb, hp, hrest, rfl⟩

/-- Any number of ENGINE turns leaves a HOST that is not blocked so. -/
theorem run_engineTurns {s : State} {k : Nat} {rest : List Turn} (hp : stopPending s = false)
    (ha : s.agenda = List.replicate k .engine ++ rest) :
    ∃ t, run k s = .next t ∧ stopPending t = false ∧ t.agenda = rest ∧ t.replies = s.replies := by
  induction k generalizing s with
  | zero => exact ⟨s, run_zero s, hp, ha, rfl⟩
  | succ k ih =>
    obtain ⟨u, hu, hpu, hau, hru⟩ := step_engineTurn hp ha
    obtain ⟨t, ht, hpt, hat, hrt⟩ := ih hpu hau
    exact ⟨t, (run_succ_of_step hu k).trans ht, hpt, hat, hrt.trans hru⟩

/-- A STOP has returned, and the ENGINE is Stopped, after two transitions: effective, it takes both; ignored, it takes
one and an idle turn follows (R108, R109). -/
theorem run_stop {s : State} (hp : stopPending s = false) (ha : s.agenda = [.host .stop]) :
    ∃ t, run 2 s = .next t ∧ t.ES = .stopped ∧ t.agenda = [] ∧ t.replies = s.replies ++ [.stopReturned] := by
  have hn : hostNext s .stop := ⟨hp, by simp [ha]⟩
  have htail : s.takeTurn.agenda = [] := by rw [takeTurn_agenda, ha, List.tail_cons]
  cases hES : s.ES with
  | running => exact ⟨_, run_stop_running hn hES, rfl, htail, rfl⟩
  | stopped =>
    have hidle := step_idle (s := (s.takeTurn.emit .stopIgnored).reply .stopReturned) hES (by simp [ha])
    exact ⟨_, run_two (step_stop_stopped hn hES) hidle, hES, by simp [ha], rfl⟩

/-- Settles O52: START, the ENGINE turns and STOP in sequence; then the two ignored operations. -/
theorem startThenStopEndsStopped : Obligations.StartThenStopEndsStopped := by
  refine ⟨fun s k hES ha => ?_, fun s hn hES => ⟨_, step_stop_stopped hn hES, hES, rfl⟩,
    fun s rest hES hL ha => ?_⟩
  · have hstart : step s = .next (hostStart s.takeTurn) := step_hostNext (hostNext_stopped hES ha)
    have hau : (hostStart s.takeTurn).agenda = List.replicate k .engine ++ [.host .stop] := by
      rw [hostStart_agenda, takeTurn_agenda, ha, List.tail_cons]
    obtain ⟨u, hu, hpu, hagenda, hru⟩ :=
      run_engineTurns (stopPending_hostStart (s := s.takeTurn) (stopPending_of_stopped hES)) hau
    obtain ⟨t, ht, hstopped, hnil, hrt⟩ := run_stop hpu hagenda
    refine ⟨t, ?_, hstopped, hnil, ?_⟩
    · rw [run_succ_of_step hstart, run_add hu, ht]
    · rw [hrt, hru, hostStart_replies, List.append_assoc]; rfl
  · have hfirst := step_start (hostNext_stopped hES ha) hES hL
    have hsecond := step_start_running (s := (resumeRun s.takeTurn).reply .startReturned) ⟨rfl, by simp [ha]⟩ rfl
    refine ⟨_, _, run_succ_of_step hfirst 0, run_two hfirst hsecond, ?_, rfl⟩
    rw [show rest = s.agenda.tail.tail by rw [ha]; rfl]
    rfl

/-! ## Without a LOAD (R106, R140) -/

/-- No cartridge, no run and no stop request, as at power-on (R22). -/
def AtRestUnloaded (s : State) : Prop := s.ES = .stopped ∧ s.LOADED = false ∧ s.CANCEL = false

/-- Only a LOAD leads out of it: START needs a cartridge, and a STOP has no run to stop (R106, R109). -/
theorem step_keeps_atRestUnloaded {s t : State} (hload : ∀ image, ¬ hostNext s (.load image)) (hs : AtRestUnloaded s)
    (h : step s = .next t) : AtRestUnloaded t := by
  obtain ⟨hES, hL, hC⟩ := hs
  have hL' : t.LOADED = false := by
    rcases step_LOADED h with e | ⟨_, _, image, hn, _⟩
    · exact e.trans hL
    · exact absurd hn (hload _)
  cases step_controlEffect h with
  | keeps hES' hC' => exact ⟨hES'.trans hES, hL', hC'.trans hC⟩
  | endsRun hrun | requestsStop _ hrun => simp [hES] at hrun
  | starts _ _ hloaded => simp [hL] at hloaded

/-- Settles O34: no LOAD in the agenda at power-on, none in it later. -/
theorem nothingRunsWithoutALoad : Obligations.NothingRunsWithoutALoad := by
  intro a x y p pc agenda k t hload h
  refine run_keeps_of_agenda_subset (Q := AtRestUnloaded) (fun u v ha hu huv => ?_) ⟨rfl, rfl, rfl⟩ h
  have hnone (image) : ¬ hostNext u (.load image) := fun hn => hload image (ha (mem_agenda_of_hostNext hn))
  exact step_keeps_atRestUnloaded hnone hu huv

end Sys2Proof.Machine
end

section
/-! PROOF. The statements about exceptions (60_exceptions.md): a Stopped ENGINE before an idle HOST is a fixed point of
`step`, and so of `run`; and the step that ends a run is the one its cause determines. -/

namespace Sys2Proof.Machine

/-! ## A Stopped ENGINE (R87, R135) -/

/-- With nothing left in the agenda, a Stopped machine has no step but the turn that passes (R87; log entry 6). -/
theorem step_stopped_idle {s : State} (hES : s.ES = .stopped) (ha : s.agenda = []) : step s = .next s := by
  rw [step_idle hES (by simp [ha]), takeTurn_of_nil ha]

/-- A fixed point of `step` is one of `run`. -/
theorem run_of_step_self {s : State} (h : step s = .next s) (k : Nat) : run k s = .next s := by
  induction k with
  | zero => exact run_zero s
  | succ k ih => rw [run_succ_of_step h, ih]

/-- Settles O14: each of the turns passes. -/
theorem stoppedEngineNeverMoves : Obligations.StoppedEngineNeverMoves := fun _ k hES ha =>
  run_of_step_self (step_stopped_idle hES ha) k

/-! ## The end of a run (R121, R122, R127) -/

/-- Settles O27: by O26 a run ends for one of two causes, and each fixes the step. -/
theorem endOfRunIsPreciseAndSavesNothing : Obligations.EndOfRunIsPreciseAndSavesNothing := by
  intro s t hES h ht
  obtain ⟨causeOfEnd, _, _⟩ := executionStateChangesOnlyAsListed s t h
  rcases causeOfEnd hES ht with hc | ⟨hn, hb⟩
  · rw [step_stopPending hES hc] at h
    cases h
    exact .inl ⟨hc, rfl⟩
  · rw [step_halts hn hb] at h
    cases h
    exact .inr ⟨hn, hb, rfl⟩

end Sys2Proof.Machine
end

section
/-! PROOF. The statements about Reset() (70_reset_and_hazards.md): its record update `doReset_eq` gives every field, and
the vector's two bytes, which do not overlap, give `PC`. -/

namespace Sys2Proof.Machine

/-- The vector's bytes in the order R142 writes them; the value fits `PC`, so nothing is lost. -/
theorem doReset_PC_toNat_eq_or (cfg : Config.Params) (s : State) :
    (doReset cfg s).PC.toNat = ((s.MEM.get 0xFFFD).toNat <<< 8 ||| (s.MEM.get 0xFFFC).toNat) := by
  rw [doReset_PC_toNat, ← resetVector_eq, resetVector_eq_or]

/-- Settles O37: `PC` is the vector, and the record update names every other field Reset() writes. -/
theorem resetSetsTheRegisterFile : Obligations.ResetSetsTheRegisterFile := by
  refine ⟨rfl, rfl, ?_⟩
  rintro cfg s _ rfl
  have hPC := doReset_PC_toNat_eq_or cfg s
  rw [doReset_eq] at hPC ⊢
  exact ⟨rfl, rfl, rfl, rfl, rfl, hPC, rfl, rfl, rfl, rfl, rfl, rfl, rfl⟩

/-- Settles O39: `PC` is `high * 256 + low`, here `0x90 * 256 + 0x00`. -/
theorem resetVectorExample : Obligations.ResetVectorExample := by
  intro cfg s hlow hhigh
  apply BitVec.eq_of_toNat_eq
  rw [doReset_PC_toNat, hlow, hhigh]
  rfl

end Sys2Proof.Machine
end
